-- ==== Sys2Proof/Word.lean ====
section
/-!
DEFINITION. The widths of the machine that are no parameters: bytes, instruction words, nibbles, register numbers
(spec/00_scope.md R5, spec/10_state.md R10, spec/30_encoding.md R52). `pc`, `I` and the stack entries are natural numbers,
their widths parameters of the configuration (R6).
-/

namespace Sys2Proof

/-- A general register, a byte of memory, a timer value (R10, R20, R30). -/
abbrev Byte := BitVec 8

/-- An instruction word, `b0 ++ b1` (R52). -/
abbrev Word := BitVec 16

/-- A nibble of an instruction word (R50). -/
abbrev Nibble := BitVec 4

/-- The number of a general register, 0..15 (R10, R53). -/
abbrev Reg := Fin 16

/-- `VF`, register 15, the flag register (R11). -/
abbrev Reg.vf : Reg := 15

end Sys2Proof
end

