-- ==== Sys2Proof/Config.lean ====
section
/-!
DEFINITION. What an implementation fixes (spec/00_scope.md R6) and the free inputs of a tick (R3). Every
parameter of R6 is a field here.
-/

namespace Sys2Proof

/-- `ADDR_POLICY`: what a memory access outside 0..4095 does (spec/20_memory.md R35). -/
inductive AddrPolicy where
  | fault
  | wrap
  deriving DecidableEq, Repr

/-- The parameters of R6, each under its own name. -/
structure Config where
  /-- `PROG_START`: where an image goes, and the reset value of `pc`. -/
  progStart : Nat
  /-- `FONT_BASE`: address of glyph 0, byte 0. -/
  fontBase : Nat
  /-- `FONT_DATA`: the 80 font bytes. -/
  fontData : List Byte
  /-- `STACK_DEPTH`: capacity of the call stack. -/
  stackDepth : Nat
  /-- `PC_BITS`: width of `pc` and of a stack entry. -/
  pcBits : Nat
  /-- `I_BITS`: width of the index register. -/
  iBits : Nat
  /-- `ADDR_POLICY`. -/
  addrPolicy : AddrPolicy
  /-- `TIMER_PERIOD`: time units per timer decrement. -/
  timerPeriod : Nat
  /-- `COLOR_ON`: what `Render` writes for a cell that is on. -/
  colorOn : Nat
  /-- `COLOR_OFF`: what `Render` writes for a cell that is off. -/
  colorOff : Nat
  deriving DecidableEq, Repr

/-- The default `FONT_DATA` of spec/20_memory.md R36, one glyph of 5 bytes a line, digits 0 to F. -/
def Config.defaultFont : List Byte :=
  [0xF0, 0x90, 0x90, 0x90, 0xF0] ++
  [0x20, 0x60, 0x20, 0x20, 0x70] ++
  [0xF0, 0x10, 0xF0, 0x80, 0xF0] ++
  [0xF0, 0x10, 0xF0, 0x10, 0xF0] ++
  [0x90, 0x90, 0xF0, 0x10, 0x10] ++
  [0xF0, 0x80, 0xF0, 0x10, 0xF0] ++
  [0xF0, 0x80, 0xF0, 0x90, 0xF0] ++
  [0xF0, 0x10, 0x20, 0x40, 0x40] ++
  [0xF0, 0x90, 0xF0, 0x90, 0xF0] ++
  [0xF0, 0x90, 0xF0, 0x10, 0xF0] ++
  [0xF0, 0x90, 0xF0, 0x90, 0x90] ++
  [0xE0, 0x90, 0xE0, 0x90, 0xE0] ++
  [0xF0, 0x80, 0x80, 0x80, 0xF0] ++
  [0xE0, 0x90, 0x90, 0x90, 0xE0] ++
  [0xF0, 0x80, 0xF0, 0x80, 0xF0] ++
  [0xF0, 0x80, 0xF0, 0x80, 0x80]

/-- The defaults R6 adopts. DESIGN CHOICE (notes/assumptions/2.md): the time unit is 1/6000 s, so `TIMER_PERIOD` is
100, and the two colours are 1 and 0; the spec leaves these three open. -/
def Config.default : Config where
  progStart := 0x200
  fontBase := 0x050
  fontData := Config.defaultFont
  stackDepth := 16
  pcBits := 16
  iBits := 16
  addrPolicy := .fault
  timerPeriod := 100
  colorOn := 1
  colorOff := 0

/-- The free input `dt` of each tick (R3, R141; spec/92_eei_decisions.md D14): any natural number of time units.
No body: nothing can be proved of its values (notes/assumptions/4.md). -/
opaque Config.freeDt : Nat → Nat

/-- The free input `rnd` of each tick (R3, R91; D22): any byte, independently at every tick.
No body: nothing can be proved of its values (notes/assumptions/4.md). -/
opaque Config.freeRnd : Nat → Byte

end Sys2Proof
end

