-- ==== Sys2Proof/Syntax.lean ====
section
/-!
DEFINITION. The instruction set: one constructor per row of spec/opcode_table.json (spec/30_encoding.md R56), its
arguments the operand fields of R53 in the order of the pattern. `SHR` and `SHL` keep their `y` field, which is
decoded but not used (R88, R90).
-/

namespace Sys2Proof

/-- The 33 instructions of R56, in the table's order. -/
inductive Instr where
  /-- `00E0` CLS, R110 -/
  | cls
  /-- `00EE` RET, R71 -/
  | ret
  /-- `1nnn` JP nnn, R72 -/
  | jpNnn (nnn : BitVec 12)
  /-- `2nnn` CALL nnn, R73 -/
  | callNnn (nnn : BitVec 12)
  /-- `3xnn` SE Vx, nn, R74 -/
  | seVxNn (x : Reg) (nn : Byte)
  /-- `4xnn` SNE Vx, nn, R75 -/
  | sneVxNn (x : Reg) (nn : Byte)
  /-- `5xy0` SE Vx, Vy, R76 -/
  | seVxVy (x y : Reg)
  /-- `9xy0` SNE Vx, Vy, R77 -/
  | sneVxVy (x y : Reg)
  /-- `6xnn` LD Vx, nn, R80 -/
  | ldVxNn (x : Reg) (nn : Byte)
  /-- `7xnn` ADD Vx, nn, R81 -/
  | addVxNn (x : Reg) (nn : Byte)
  /-- `8xy0` LD Vx, Vy, R82 -/
  | ldVxVy (x y : Reg)
  /-- `8xy1` OR Vx, Vy, R83 -/
  | orVxVy (x y : Reg)
  /-- `8xy2` AND Vx, Vy, R84 -/
  | andVxVy (x y : Reg)
  /-- `8xy3` XOR Vx, Vy, R85 -/
  | xorVxVy (x y : Reg)
  /-- `8xy4` ADD Vx, Vy, R86 -/
  | addVxVy (x y : Reg)
  /-- `8xy5` SUB Vx, Vy, R87 -/
  | subVxVy (x y : Reg)
  /-- `8xy6` SHR Vx, R88 -/
  | shrVx (x y : Reg)
  /-- `8xy7` SUBN Vx, Vy, R89 -/
  | subnVxVy (x y : Reg)
  /-- `8xyE` SHL Vx, R90 -/
  | shlVx (x y : Reg)
  /-- `Annn` LD I, nnn, R100 -/
  | ldINnn (nnn : BitVec 12)
  /-- `Cxnn` RND Vx, nn, R91 -/
  | rndVxNn (x : Reg) (nn : Byte)
  /-- `Dxyn` DRW Vx, Vy, n, R111 -/
  | drwVxVyN (x y : Reg) (n : Nibble)
  /-- `Ex9E` SKP Vx, R120 -/
  | skpVx (x : Reg)
  /-- `ExA1` SKNP Vx, R121 -/
  | sknpVx (x : Reg)
  /-- `Fx0A` LD Vx, K, R122 -/
  | ldVxK (x : Reg)
  /-- `Fx07` LD Vx, DT, R123 -/
  | ldVxDt (x : Reg)
  /-- `Fx15` LD DT, Vx, R124 -/
  | ldDtVx (x : Reg)
  /-- `Fx18` LD ST, Vx, R125 -/
  | ldStVx (x : Reg)
  /-- `Fx1E` ADD I, Vx, R101 -/
  | addIVx (x : Reg)
  /-- `Fx29` LD F, Vx, R102 -/
  | ldFVx (x : Reg)
  /-- `Fx33` LD B, Vx, R103 -/
  | ldBVx (x : Reg)
  /-- `Fx55` LD [I], Vx, R104 -/
  | ldMemVx (x : Reg)
  /-- `Fx65` LD Vx, [I], R105 -/
  | ldVxMem (x : Reg)
  deriving DecidableEq, Repr

end Sys2Proof
end

