-- ==== Sys2Proof/WellFormed.lean ====
section
/-!
DEFINITION. What is well formed: an instruction word (spec/30_encoding.md R56, R57), an instruction, a configuration
(spec/00_scope.md R6). The operand fields of `Instr` carry their ranges in their types, so the check on an instruction
proper is the one on its word: it must carry the fixed bits of its own row.
-/

namespace Sys2Proof

/-- A row of the opcode map: a word `w` is selected iff `w AND mask = match` (R56). -/
structure OpcodeRow where
  mask : Word
  pattern : Word
  deriving DecidableEq, Repr

/-- The 33 rows of R56, in its order. -/
def opcodeTable : List OpcodeRow :=
  [⟨0xFFFF, 0x00E0⟩, ⟨0xFFFF, 0x00EE⟩, ⟨0xF000, 0x1000⟩, ⟨0xF000, 0x2000⟩, ⟨0xF000, 0x3000⟩, ⟨0xF000, 0x4000⟩] ++
  [⟨0xF00F, 0x5000⟩, ⟨0xF00F, 0x9000⟩, ⟨0xF000, 0x6000⟩, ⟨0xF000, 0x7000⟩] ++
  [⟨0xF00F, 0x8000⟩, ⟨0xF00F, 0x8001⟩, ⟨0xF00F, 0x8002⟩, ⟨0xF00F, 0x8003⟩, ⟨0xF00F, 0x8004⟩] ++
  [⟨0xF00F, 0x8005⟩, ⟨0xF00F, 0x8006⟩, ⟨0xF00F, 0x8007⟩, ⟨0xF00F, 0x800E⟩] ++
  [⟨0xF000, 0xA000⟩, ⟨0xF000, 0xC000⟩, ⟨0xF000, 0xD000⟩, ⟨0xF0FF, 0xE09E⟩, ⟨0xF0FF, 0xE0A1⟩] ++
  [⟨0xF0FF, 0xF00A⟩, ⟨0xF0FF, 0xF007⟩, ⟨0xF0FF, 0xF015⟩, ⟨0xF0FF, 0xF018⟩, ⟨0xF0FF, 0xF01E⟩] ++
  [⟨0xF0FF, 0xF029⟩, ⟨0xF0FF, 0xF033⟩, ⟨0xF0FF, 0xF055⟩, ⟨0xF0FF, 0xF065⟩]

/-- The word `w` carries the fixed bits of the row `r` (R56). -/
def OpcodeRow.selects (r : OpcodeRow) (w : Word) : Bool := w &&& r.mask == r.pattern

/-- A well-formed instruction word: some row of R56 selects it; every other word is illegal (R57). -/
def legalWord (w : Word) : Bool := opcodeTable.any (fun r => r.selects w)

/-- The row of R56 that stands for an instruction. -/
def Instr.row : Instr → OpcodeRow
  | .cls => ⟨0xFFFF, 0x00E0⟩
  | .ret => ⟨0xFFFF, 0x00EE⟩
  | .jpNnn _ => ⟨0xF000, 0x1000⟩
  | .callNnn _ => ⟨0xF000, 0x2000⟩
  | .seVxNn _ _ => ⟨0xF000, 0x3000⟩
  | .sneVxNn _ _ => ⟨0xF000, 0x4000⟩
  | .seVxVy _ _ => ⟨0xF00F, 0x5000⟩
  | .sneVxVy _ _ => ⟨0xF00F, 0x9000⟩
  | .ldVxNn _ _ => ⟨0xF000, 0x6000⟩
  | .addVxNn _ _ => ⟨0xF000, 0x7000⟩
  | .ldVxVy _ _ => ⟨0xF00F, 0x8000⟩
  | .orVxVy _ _ => ⟨0xF00F, 0x8001⟩
  | .andVxVy _ _ => ⟨0xF00F, 0x8002⟩
  | .xorVxVy _ _ => ⟨0xF00F, 0x8003⟩
  | .addVxVy _ _ => ⟨0xF00F, 0x8004⟩
  | .subVxVy _ _ => ⟨0xF00F, 0x8005⟩
  | .shrVx _ _ => ⟨0xF00F, 0x8006⟩
  | .subnVxVy _ _ => ⟨0xF00F, 0x8007⟩
  | .shlVx _ _ => ⟨0xF00F, 0x800E⟩
  | .ldINnn _ => ⟨0xF000, 0xA000⟩
  | .rndVxNn _ _ => ⟨0xF000, 0xC000⟩
  | .drwVxVyN _ _ _ => ⟨0xF000, 0xD000⟩
  | .skpVx _ => ⟨0xF0FF, 0xE09E⟩
  | .sknpVx _ => ⟨0xF0FF, 0xE0A1⟩
  | .ldVxK _ => ⟨0xF0FF, 0xF00A⟩
  | .ldVxDt _ => ⟨0xF0FF, 0xF007⟩
  | .ldDtVx _ => ⟨0xF0FF, 0xF015⟩
  | .ldStVx _ => ⟨0xF0FF, 0xF018⟩
  | .addIVx _ => ⟨0xF0FF, 0xF01E⟩
  | .ldFVx _ => ⟨0xF0FF, 0xF029⟩
  | .ldBVx _ => ⟨0xF0FF, 0xF033⟩
  | .ldMemVx _ => ⟨0xF0FF, 0xF055⟩
  | .ldVxMem _ => ⟨0xF0FF, 0xF065⟩

/-- The constraints R6 puts on a configuration (both widths at least 13 bits among them), that
`FONT_DATA` has its 80 bytes (R36), and that the two colours are distinct (D23). -/
abbrev Config.Ok (c : Config) : Prop :=
  c.fontBase + 80 ≤ 4096 ∧ c.progStart ≤ 4094 ∧ 1 ≤ c.stackDepth ∧ 1 ≤ c.timerPeriod ∧
    c.fontData.length = 80 ∧ c.colorOn ≠ c.colorOff ∧
    13 ≤ c.pcBits ∧ 13 ≤ c.iBits

end Sys2Proof
end

