-- ==== Sys2Proof/Decode.lean ====
section
/-!
DEFINITION. The decoder of an instruction word (spec/30_encoding.md R52 to R57) and, after it, the encoder written from
the same tables (R54, R56). Decoding depends on the 16-bit word alone (R59).
-/

namespace Sys2Proof

/-- The groups of illegal words, one per row of the table of R57. -/
inductive IllegalWord where
  /-- `0000`..`0FFF` except `00E0`, `00EE` -/
  | zeroGroup
  /-- `5xyk` with `k ≠ 0` -/
  | fiveGroup
  /-- `8xyk` with `k` in 8, 9, A, B, C, D, F -/
  | eightGroup
  /-- `9xyk` with `k ≠ 0` -/
  | nineGroup
  /-- `B000`..`BFFF` -/
  | bGroup
  /-- `Exkk` with `kk` not in 9E, A1 -/
  | eGroup
  /-- `Fxkk` with `kk` not in 07, 0A, 15, 18, 1E, 29, 33, 55, 65 -/
  | fGroup
  deriving DecidableEq, Repr

/-- The big-endian word of two bytes: the byte at the lower address is the high half (R37, R52). -/
def wordOfBytes (b0 b1 : Byte) : Word := b0 ++ b1

/-- `n3 = w[15:12]` (R52). -/
def nibble3 (w : Word) : Nibble := w.extractLsb' 12 4
/-- `n2 = w[11:8]` (R52). -/
def nibble2 (w : Word) : Nibble := w.extractLsb' 8 4
/-- `n1 = w[7:4]` (R52). -/
def nibble1 (w : Word) : Nibble := w.extractLsb' 4 4
/-- `n0 = w[3:0]` (R52). -/
def nibble0 (w : Word) : Nibble := w.extractLsb' 0 4

/-- The register a nibble names: every value names one (R53). -/
def regOfNibble (n : Nibble) : Reg := n.toFin

/-- `0___`: only `00E0` and `00EE` (R56, R57). -/
def decodeZero (n2 n1 n0 : Nibble) : Except IllegalWord Instr :=
  if n2 = 0x0 ∧ n1 = 0xE ∧ n0 = 0x0 then .ok .cls
  else if n2 = 0x0 ∧ n1 = 0xE ∧ n0 = 0xE then .ok .ret
  else .error .zeroGroup

/-- `8xy_`: the nine ALU operations by their function nibble (R56). -/
def decodeAlu (x y : Reg) (n0 : Nibble) : Except IllegalWord Instr :=
  match n0 with
  | 0x0#4 => .ok (.ldVxVy x y)
  | 0x1#4 => .ok (.orVxVy x y)
  | 0x2#4 => .ok (.andVxVy x y)
  | 0x3#4 => .ok (.xorVxVy x y)
  | 0x4#4 => .ok (.addVxVy x y)
  | 0x5#4 => .ok (.subVxVy x y)
  | 0x6#4 => .ok (.shrVx x y)
  | 0x7#4 => .ok (.subnVxVy x y)
  | 0xE#4 => .ok (.shlVx x y)
  | _ => .error .eightGroup

/-- `Ex__`: by the low byte (R56). -/
def decodeKeys (x : Reg) (n1 n0 : Nibble) : Except IllegalWord Instr :=
  if n1 = 0x9 ∧ n0 = 0xE then .ok (.skpVx x)
  else if n1 = 0xA ∧ n0 = 0x1 then .ok (.sknpVx x)
  else .error .eGroup

/-- `Fx__`: by the low byte (R56). -/
def decodeMisc (x : Reg) (low : Byte) : Except IllegalWord Instr :=
  match low with
  | 0x07#8 => .ok (.ldVxDt x)
  | 0x0A#8 => .ok (.ldVxK x)
  | 0x15#8 => .ok (.ldDtVx x)
  | 0x18#8 => .ok (.ldStVx x)
  | 0x1E#8 => .ok (.addIVx x)
  | 0x29#8 => .ok (.ldFVx x)
  | 0x33#8 => .ok (.ldBVx x)
  | 0x55#8 => .ok (.ldMemVx x)
  | 0x65#8 => .ok (.ldVxMem x)
  | _ => .error .fGroup

/-- The instruction four nibbles denote, or the group of R57 they fall in (R55, R56). -/
def decodeNibbles (n3 n2 n1 n0 : Nibble) : Except IllegalWord Instr :=
  match n3 with
  | 0x0#4 => decodeZero n2 n1 n0
  | 0x1#4 => .ok (.jpNnn (n2 ++ n1 ++ n0))
  | 0x2#4 => .ok (.callNnn (n2 ++ n1 ++ n0))
  | 0x3#4 => .ok (.seVxNn (regOfNibble n2) (n1 ++ n0))
  | 0x4#4 => .ok (.sneVxNn (regOfNibble n2) (n1 ++ n0))
  | 0x5#4 => if n0 = 0x0 then .ok (.seVxVy (regOfNibble n2) (regOfNibble n1)) else .error .fiveGroup
  | 0x6#4 => .ok (.ldVxNn (regOfNibble n2) (n1 ++ n0))
  | 0x7#4 => .ok (.addVxNn (regOfNibble n2) (n1 ++ n0))
  | 0x8#4 => decodeAlu (regOfNibble n2) (regOfNibble n1) n0
  | 0x9#4 => if n0 = 0x0 then .ok (.sneVxVy (regOfNibble n2) (regOfNibble n1)) else .error .nineGroup
  | 0xA#4 => .ok (.ldINnn (n2 ++ n1 ++ n0))
  | 0xB#4 => .error .bGroup
  | 0xC#4 => .ok (.rndVxNn (regOfNibble n2) (n1 ++ n0))
  | 0xD#4 => .ok (.drwVxVyN (regOfNibble n2) (regOfNibble n1) n0)
  | 0xE#4 => decodeKeys (regOfNibble n2) n1 n0
  | _ => decodeMisc (regOfNibble n2) (n1 ++ n0)

/-- The decoder: total on every word (R50 "No validation", R55). -/
def decode (w : Word) : Except IllegalWord Instr :=
  decodeNibbles (nibble3 w) (nibble2 w) (nibble1 w) (nibble0 w)

/-- An instruction of the opcode table as the two bytes it is stored as, the first at the lower address: `w` is one
number with bit 0 the least significant bit of the 16-bit word, so its high byte comes first (R37, R52). Bits at and
above `nbits` are 0. -/
def tableBytes (nbits w : Nat) : Byte × Byte :=
  let word := w % 2 ^ nbits
  (BitVec.ofNat 8 (word / 256), BitVec.ofNat 8 (word % 256))

/-- The instruction the decoder reads from a table row's bits, or none where it refuses them. Every instruction has 16
bits, so a longer `nbits` is no instruction. -/
def decodeTableWord (nbits w : Nat) : Option Instr :=
  if nbits ≤ 16 then
    match decode (wordOfBytes (tableBytes nbits w).1 (tableBytes nbits w).2) with
    | .ok i => some i
    | .error _ => none
  else none

/-! The encoder. -/

/-- The nibble of a register field (R53). -/
def nibbleOfReg (r : Reg) : Nibble := BitVec.ofFin r

/-- The word of four nibbles, most significant first (R52). -/
def wordOfNibbles (n3 n2 n1 n0 : Nibble) : Word := n3 ++ n2 ++ n1 ++ n0

/-- Format NNN (R54). -/
def encodeNnn (op : Nibble) (nnn : BitVec 12) : Word :=
  wordOfNibbles op (nnn.extractLsb' 8 4) (nnn.extractLsb' 4 4) (nnn.extractLsb' 0 4)

/-- Formats XNN and X (R54): a register field and a low byte, literal or tag. -/
def encodeXnn (op : Nibble) (x : Reg) (nn : Byte) : Word :=
  wordOfNibbles op (nibbleOfReg x) (nn.extractLsb' 4 4) (nn.extractLsb' 0 4)

/-- Formats XY and XYN (R54): two register fields and a low nibble, tag or literal. -/
def encodeXyn (op : Nibble) (x y : Reg) (n : Nibble) : Word :=
  wordOfNibbles op (nibbleOfReg x) (nibbleOfReg y) n

/-- The word of an instruction (R54, R56). -/
def encode : Instr → Word
  | .cls => wordOfNibbles 0x0 0x0 0xE 0x0
  | .ret => wordOfNibbles 0x0 0x0 0xE 0xE
  | .jpNnn nnn => encodeNnn 0x1 nnn
  | .callNnn nnn => encodeNnn 0x2 nnn
  | .seVxNn x nn => encodeXnn 0x3 x nn
  | .sneVxNn x nn => encodeXnn 0x4 x nn
  | .seVxVy x y => encodeXyn 0x5 x y 0x0
  | .sneVxVy x y => encodeXyn 0x9 x y 0x0
  | .ldVxNn x nn => encodeXnn 0x6 x nn
  | .addVxNn x nn => encodeXnn 0x7 x nn
  | .ldVxVy x y => encodeXyn 0x8 x y 0x0
  | .orVxVy x y => encodeXyn 0x8 x y 0x1
  | .andVxVy x y => encodeXyn 0x8 x y 0x2
  | .xorVxVy x y => encodeXyn 0x8 x y 0x3
  | .addVxVy x y => encodeXyn 0x8 x y 0x4
  | .subVxVy x y => encodeXyn 0x8 x y 0x5
  | .shrVx x y => encodeXyn 0x8 x y 0x6
  | .subnVxVy x y => encodeXyn 0x8 x y 0x7
  | .shlVx x y => encodeXyn 0x8 x y 0xE
  | .ldINnn nnn => encodeNnn 0xA nnn
  | .rndVxNn x nn => encodeXnn 0xC x nn
  | .drwVxVyN x y n => encodeXyn 0xD x y n
  | .skpVx x => encodeXnn 0xE x 0x9E
  | .sknpVx x => encodeXnn 0xE x 0xA1
  | .ldVxK x => encodeXnn 0xF x 0x0A
  | .ldVxDt x => encodeXnn 0xF x 0x07
  | .ldDtVx x => encodeXnn 0xF x 0x15
  | .ldStVx x => encodeXnn 0xF x 0x18
  | .addIVx x => encodeXnn 0xF x 0x1E
  | .ldFVx x => encodeXnn 0xF x 0x29
  | .ldBVx x => encodeXnn 0xF x 0x33
  | .ldMemVx x => encodeXnn 0xF x 0x55
  | .ldVxMem x => encodeXnn 0xF x 0x65

/-- The two bytes of an instruction in memory, the lower address first (R37). -/
def encodeBytes (i : Instr) : List Byte :=
  [(encode i).extractLsb' 8 8, (encode i).extractLsb' 0 8]

end Sys2Proof
end

