-- ==== Sys2Proof/Machine/State.lean ====
section
/-!
DEFINITION. The state of the core (spec/10_state.md R10 to R24), its faults (spec/60_exceptions.md R132), the refusals
of the host interface, and the state after reset (R24, R160).
-/

namespace Sys2Proof.Machine

/-- The kind of a memory access (spec/20_memory.md R35). -/
inductive AccessKind where
  | fetch
  | read
  | write
  deriving DecidableEq, Repr

/-- The five faults and what each records (R132). `raise` (R131) writes one into `State.fault` and sets `halted`: the
spec describes that entry, so it is a NEXT state. No step, no instruction and no host operation of this model answers
`Host.Outcome.fault` (safe: the machine is total, as R133 says of the halted state). -/
inductive Fault where
  /-- Code 1. Raised by `execute` when the fetched word `w` matches no pattern; `origin` is the address it was fetched
  from. Safe: the spec's own fault (R55, R57). -/
  | illegalInstruction (w : Word) (origin : Nat)
  /-- Code 2. Raised by RET with an empty stack. Safe: the spec's own fault (R71). -/
  | stackUnderflow
  /-- Code 3. Raised by CALL with a full stack; `ret` is the return address that could not be pushed. Safe: the spec's
  decision D4 errs toward unprovable (R16, R73). -/
  | stackOverflow (ret : Nat)
  /-- Code 4. Raised by a fetch, a taken skip, DRW, LD B, LD [I] and LD Vx,[I] at the lowest address `a` above 4095,
  only under `AddrPolicy.fault`. Safe: the spec's decision D7 errs toward unprovable (R35). -/
  | addressFault (a : Nat) (kind : AccessKind)
  /-- Code 5. Raised by SKP and SKNP when `V[x] > 15`; `k` is that value. Safe: the spec's decision D11 errs toward
  unprovable (R120, R121). -/
  | keyIndexFault (k : Byte)
  deriving DecidableEq, Repr

/-- What is given no meaning. -/
inductive Refusal where
  /-- An instruction that has no meaning in `exec`; no arm uses it. Safe. -/
  | notModelled (mnemonic : String)
  /-- `Load` of an image of `len` bytes, more than `4096 - PROG_START`: refused, no state change (R146, D17). Raised by
  the host operation `load` only. Safe. -/
  | imageTooLong (len : Nat)
  /-- `KeySet` with an index above 15: refused, no state change (R149, D24). Raised by the host operation `keySet`
  only. Safe. -/
  | keyIndexOutOfRange (k : Nat)
  deriving DecidableEq, Repr

/-- A decaying timer (R20, R140). -/
structure Timer where
  /-- The countdown value. -/
  val : Byte
  /-- The accumulated time not yet converted into decrements. -/
  acc : Nat
  deriving DecidableEq, Repr

/-- The bytes of memory that differ from their reset contents, by rising address. An address not listed reads as its
reset byte: the font in the font region, 0 elsewhere (R24, R39). -/
abbrev Memory := List Host.Cell

/-- The display grid, column first: `disp[cx][cy]` (R18). -/
abbrev Grid := Vector (Vector Bool 32) 64

/-- All the state of the machine. The last three fields are the model's own (notes/assumptions/1.md and 4.md). -/
structure State where
  /-- The general registers `V[0]`..`V[15]` (R10); `V[15]` is `VF` (R11). -/
  v : Vector Byte 16
  /-- The program counter, a number below `2^PC_BITS` (R12; notes/assumptions/3.md). -/
  pc : Nat
  /-- The index register `I`, a number below `2^I_BITS` (R14). -/
  index : Nat
  /-- `stack[0 .. STACK_DEPTH-1]`; each below `2^PC_BITS`; entries at and above `sp` are dead (R15). -/
  stack : List Nat
  /-- The number of stack entries in use (R15). -/
  sp : Nat
  /-- Memory (R17). -/
  mem : Memory
  /-- The display (R18). -/
  disp : Grid
  /-- The key vector (R19). -/
  key : Vector Bool 16
  /-- The delay timer `DT` (R20). -/
  dt : Timer
  /-- The sound timer `ST` (R20). -/
  st : Timer
  /-- The core has faulted (R21). -/
  halted : Bool
  /-- The fault, valid when `halted` (R21). -/
  fault : Option Fault
  /-- The configuration of spec/00_scope.md R6, constant. -/
  cfg : Config
  /-- The draw `rnd` of the tick being executed (spec/00_scope.md R3). -/
  rnd : Byte
  /-- The number of non-halted ticks begun: the index of the free inputs `Config.freeDt` and `Config.freeRnd`. -/
  ticks : Nat
  deriving DecidableEq, Repr

/-- The state after `Reset()` under a configuration (R24, R150, R160). The dead stack entries, which R24 leaves
unspecified, are 0 (DESIGN CHOICE, notes/assumptions/8.md). -/
def State.resetWith (c : Config) : State where
  v := Vector.replicate 16 0
  pc := c.progStart
  index := 0
  stack := List.replicate c.stackDepth 0
  sp := 0
  mem := []
  disp := Vector.replicate 64 (Vector.replicate 32 false)
  key := Vector.replicate 16 false
  dt := ⟨0, 0⟩
  st := ⟨0, 0⟩
  halted := false
  fault := none
  cfg := c
  rnd := 0
  ticks := 0

/-- The machine right after reset, at the spec's default configuration. -/
def State.reset : State := State.resetWith Config.default

end Sys2Proof.Machine
end

