-- ==== Sys2Proof/Machine/Ops.lean ====
section
/-!
DEFINITION. The named operations over memory and registers: the access primitives of spec/20_memory.md R33 to R35, the
fetch and the skip (spec/30_encoding.md R50, spec/40_control.md R70), the call stack (spec/10_state.md R16), the timers
(spec/60_exceptions.md R141, R142), and taking a fault (R131). An operation that may fault answers `Except`; the state
it was given is what `orRaise` raises the fault in, so a faulting instruction writes nothing (R131).
-/

namespace Sys2Proof.Machine

/-! Taking a fault. -/

/-- `raise F(info)` (R131): the record and the halted flag; whatever else was done earlier in the tick stands. -/
def raise (f : Fault) (s : State) : State := { s with halted := true, fault := some f }

/-- The end of an instruction begun in `s`: its result, or the fault raised with none of its writes (R131). -/
def orRaise (s : State) : Except Fault State → Host.Outcome State Fault Refusal
  | .ok t => .next t
  | .error f => .next (raise f s)

/-! Memory. -/

/-- The byte an address holds at reset: the font in `FONT_BASE .. FONT_BASE + 79`, 0 elsewhere (R24, R39). -/
def initByte (c : Config) (a : Nat) : Byte :=
  if c.fontBase ≤ a ∧ a < c.fontBase + 80 then (c.fontData[a - c.fontBase]?).getD 0 else 0

/-- Read one byte (R32). -/
def Memory.read (c : Config) : Memory → Nat → Byte
  | [], a => initByte c a
  | (k, b) :: m, a => if k = a then b else Memory.read c m a

/-- Put an entry in front of a memory whose addresses are all higher, unless it is what the address reads as anyway. -/
def Memory.cons (c : Config) (a : Nat) (b : Byte) (m : Memory) : Memory :=
  if b = initByte c a then m else (a, b) :: m

/-- Write one byte, keeping the canonical form (R32, R34). -/
def Memory.write (c : Config) : Memory → Nat → Byte → Memory
  | [], a, b => Memory.cons c a b []
  | (k, b') :: m, a, b =>
    if a < k then Memory.cons c a b ((k, b') :: m)
    else if a = k then Memory.cons c a b m
    else (k, b') :: Memory.write c m a b

/-- The canonical form: addresses inside memory and strictly rising, no entry equal to the reset byte. -/
def Memory.wf (c : Config) : Memory → Bool
  | [] => true
  | (a, b) :: m => decide (a < 4096) && b != initByte c a && m.all (fun e => decide (a < e.1)) && Memory.wf c m

/-- The byte at an address of memory: the model's read of one byte. -/
def State.byteAt (s : State) (a : Nat) : Byte := Memory.read s.cfg s.mem a

/-- The effective address of an access (R35). -/
def effAddr (c : Config) (a : Nat) (kind : AccessKind) : Except Fault Nat :=
  if a ≤ 4095 then .ok a
  else match c.addrPolicy with
    | .fault => .error (.addressFault a kind)
    | .wrap => .ok (a % 4096)

/-- `MemRead(a, 1)` (R33); `kind` is fetch or read. -/
def memRead (s : State) (a : Nat) (kind : AccessKind) : Except Fault Byte :=
  match effAddr s.cfg a kind with
  | .error f => .error f
  | .ok e => .ok (s.byteAt e)

/-- `MemWrite(a, 1, b)` (R34). -/
def memWrite (s : State) (a : Nat) (b : Byte) : Except Fault State :=
  match effAddr s.cfg a .write with
  | .error f => .error f
  | .ok e => .ok { s with mem := Memory.write s.cfg s.mem e b }

/-- `MemRead` at `a`, `a + 1`, ..., `a + n - 1`, in that order (R31). -/
def readBytes (s : State) (a : Nat) : Nat → Except Fault (List Byte)
  | 0 => .ok []
  | n + 1 =>
    match memRead s a .read with
    | .error f => .error f
    | .ok b =>
      match readBytes s (a + 1) n with
      | .error f => .error f
      | .ok bs => .ok (b :: bs)

/-- `MemWrite` of a list of bytes at `a`, `a + 1`, ..., in that order (R31). -/
def writeBytes (s : State) (a : Nat) : List Byte → Except Fault State
  | [] => .ok s
  | b :: bs =>
    match memWrite s a b with
    | .error f => .error f
    | .ok t => writeBytes t (a + 1) bs

/-! Registers. -/

/-- `V[x] <- b` (R10). -/
def State.setV (s : State) (x : Reg) (b : Byte) : State := { s with v := s.v.set x.val b x.isLt }

/-- `V[i] <- b` for `i` from `n` on and the bytes of a list in order, as many as there are registers (R105). -/
def State.setVs (s : State) (n : Nat) : List Byte → State
  | [] => s
  | b :: bs => if h : n < 16 then (s.setV ⟨n, h⟩ b).setVs (n + 1) bs else s

/-- `pc <- t` (R12). -/
def State.setPc (s : State) (t : Nat) : State := { s with pc := t }

/-- `I <- t` (R14). -/
def State.setIndex (s : State) (t : Nat) : State := { s with index := t }

/-- `(pc + 2) mod 2^PC_BITS` (R50). -/
def State.pcNext (s : State) : Nat := (s.pc + 2) % 2 ^ s.cfg.pcBits

/-- `(pc - 2) mod 2^PC_BITS`: the address of the instruction being executed (R12), and where a wait goes back to
(R122). -/
def State.pcBack (s : State) : Nat := (s.pc + 2 ^ s.cfg.pcBits - 2) % 2 ^ s.cfg.pcBits

/-! Fetch and skip. -/

/-- `Fetch()` (R50, R51): both bytes, then `pc <- (pc + 2) mod 2^PC_BITS`; `pc + 1` is formed as a natural number. -/
def fetch (s : State) : Except Fault (Word × State) :=
  match memRead s s.pc .fetch with
  | .error f => .error f
  | .ok b0 =>
    match memRead s (s.pc + 1) .fetch with
    | .error f => .error f
    | .ok b1 => .ok (wordOfBytes b0 b1, s.setPc s.pcNext)

/-- `Skip()` (R70): a fetch whose word is discarded undecoded. -/
def skip (s : State) : Except Fault State :=
  match fetch s with
  | .error f => .error f
  | .ok r => .ok r.2

/-- `if c then Skip()` (R74 to R77, R120, R121). -/
def skipIf (c : Bool) (s : State) : Except Fault State :=
  if c then skip s else .ok s

/-! The call stack. -/

/-- `Push(v)` (R16). On legal states `sp ≤ STACK_DEPTH`, so "not less than" is the rule's "equal"
(notes/assumptions/10.md). -/
def push (s : State) (t : Nat) : Except Fault State :=
  if s.sp < s.cfg.stackDepth then .ok { s with stack := s.stack.set s.sp t, sp := s.sp + 1 }
  else .error (.stackOverflow t)

/-- `Pop()` (R16): the entry and the state with it removed; the entry stays behind as a dead value (R71). -/
def pop (s : State) : Except Fault (Nat × State) :=
  match s.sp with
  | 0 => .error .stackUnderflow
  | n + 1 => .ok ((s.stack[n]?).getD 0, { s with sp := n })

/-! Timers. -/

/-- The loop of `TimerUpdate` (R141): the value and the accumulator after it. -/
def timerLoop (period : Nat) : Nat → Nat → Nat × Nat
  | 0, acc => (0, acc)
  | n + 1, acc => if acc ≥ period then timerLoop period n (acc - period) else (n + 1, acc)

/-- `TimerUpdate(T, dt)` (R141; the comparison is `>=`, spec/90_conflicts.md C1). -/
def timerUpdate (period : Nat) (t : Timer) (dt : Nat) : Timer :=
  let r := timerLoop period t.val.toNat (t.acc + dt)
  { val := BitVec.ofNat 8 r.1, acc := r.2 }

/-- `TimerSet(T, v)` (R142). -/
def timerSet (b : Byte) : Timer := { val := b, acc := 0 }

/-- The start of a non-halted tick: both timers updated by the same `dt`, the draw `rnd` latched (R3). -/
def beginTick (dt : Nat) (rnd : Byte) (s : State) : State :=
  { s with
    dt := timerUpdate s.cfg.timerPeriod s.dt dt
    st := timerUpdate s.cfg.timerPeriod s.st dt
    rnd := rnd
    ticks := s.ticks + 1 }

/-! Placing an instruction where the next fetch reads it. -/

/-- The effective address of a fetch, or none where it faults. -/
def fetchAddr (c : Config) (a : Nat) : Option Nat :=
  match effAddr c a .fetch with
  | .ok e => some e
  | .error _ => none

/-- Two bytes stored where `fetch` reads its first and second byte; a state whose fetch faults is left as it is. -/
def placeBytes (s : State) (b0 b1 : Byte) : State :=
  match fetchAddr s.cfg s.pc, fetchAddr s.cfg (s.pc + 1) with
  | some e0, some e1 => { s with mem := Memory.write s.cfg (Memory.write s.cfg s.mem e0 b0) e1 b1 }
  | _, _ => s

end Sys2Proof.Machine
end

