-- ==== Sys2Proof/Machine/Operands.lean ====
section
/-!
DEFINITION. Every operand form of the instruction set: registers and literals (spec/30_encoding.md R53), the one
addressing mode, index plus implicit offset (spec/42_index_memory.md), the font address, the key an instruction tests
and the key it waits for, and a sprite's place on the display (spec/43_display.md R111).
-/

namespace Sys2Proof.Machine

/-- `V[x]`, a register operand (R10, R53). -/
def regOperand (s : State) (x : Reg) : Byte := s.v[x.val]

/-- `nnn` zero-extended to PC_BITS or I_BITS (R53): the same number, since both are at least 13. -/
def zextNnn (nnn : BitVec 12) : Nat := nnn.toNat

/-- The base of every data access: `I` as a natural number, so that `I + i` does not wrap (R31). -/
def indexBase (s : State) : Nat := s.index

/-- The registers `V[0]` to `V[x]` in order: what `Fx55` stores (R104). -/
def regsUpTo (s : State) (x : Reg) : List Byte := s.v.toList.take (x.val + 1)

/-- The hundreds, tens and ones of a byte (R103). -/
def bcdDigits (a : Byte) : List Byte :=
  [BitVec.ofNat 8 (a.toNat / 100), BitVec.ofNat 8 (a.toNat / 10 % 10), BitVec.ofNat 8 (a.toNat % 10)]

/-- `FONT_BASE + V[x] * 5`, in natural-number arithmetic (R102); it fits I_BITS for every configuration R6 allows. -/
def glyphAddr (s : State) (a : Byte) : Nat := s.cfg.fontBase + a.toNat * 5

/-- `key[k]` for the key index in a register; an index above 15 faults (R120, R121). -/
def keyOperand (s : State) (k : Byte) : Except Fault Bool :=
  if h : k.toNat < 16 then .ok s.key[k.toNat] else .error (.keyIndexFault k)

/-- The smallest `k` with `key[k] = true`, if any (R122). -/
def firstKeyDown (s : State) : Option Nat := s.key.toList.findIdx? (fun b => b)

/-- The start column of a sprite, `V[x] mod 64` (R111). -/
def spriteColumn (a : Byte) : Nat := a.toNat % 64

/-- The start row of a sprite, `V[y] mod 32` (R111). -/
def spriteRow (b : Byte) : Nat := b.toNat % 32

end Sys2Proof.Machine
end

