-- ==== Sys2Proof/Machine/Flags.lean ====
section
/-!
DEFINITION. Every result and flag computation of the ALU (spec/41_load_alu.md R86 to R90, R92, R93): operands as natural
numbers, exact arithmetic, one explicit narrowing.
-/

namespace Sys2Proof.Machine

/-- A flag value: always exactly 0x00 or 0x01 (R93). -/
def flagByte (b : Bool) : Byte := if b then 1 else 0

/-- `(a + b) mod 256` (R81, R86). -/
def addResult (a b : Byte) : Byte := BitVec.ofNat 8 (a.toNat + b.toNat)

/-- The carry out: 1 if the exact sum exceeds 255 (R86). -/
def carryFlag (a b : Byte) : Byte := flagByte (decide (a.toNat + b.toNat > 255))

/-- `(a - b) mod 256` (R87, R89). -/
def subResult (a b : Byte) : Byte := BitVec.ofNat 8 (a.toNat + 256 - b.toNat)

/-- Not borrow: 1 if `a ≥ b` (R87, R89). -/
def notBorrowFlag (a b : Byte) : Byte := flagByte (decide (a.toNat ≥ b.toNat))

/-- `a >> 1`, zero shifted in (R88). -/
def shrResult (a : Byte) : Byte := BitVec.ofNat 8 (a.toNat / 2)

/-- Bit 0, the bit a right shift moves out (R88). -/
def shrFlag (a : Byte) : Byte := flagByte (a.getLsbD 0)

/-- `(a << 1) mod 256` (R90). -/
def shlResult (a : Byte) : Byte := BitVec.ofNat 8 (a.toNat * 2)

/-- Bit 7, the bit a left shift moves out (R90). -/
def shlFlag (a : Byte) : Byte := flagByte (a.getLsbD 7)

/-- The writes of a flag-producing instruction: the result to `V[x]` first, the flag to `VF` second, so that with
`x = 15` the flag stays (R92). -/
def writeWithFlag (s : State) (x : Reg) (result flag : Byte) : State :=
  (s.setV x result).setV Reg.vf flag

end Sys2Proof.Machine
end

