-- ==== Sys2Proof/Machine/Control.lean ====
section
/-!
DEFINITION. Control transfer (spec/40_control.md R70 to R77). `s` is the state after the fetch: `pc` is already the
address of the next sequential instruction (spec/10_state.md R12).
-/

namespace Sys2Proof.Machine

/-- `00EE` RET (R71). -/
def execRet (s : State) : Host.Outcome State Fault Refusal :=
  match pop s with
  | .error f => orRaise s (.error f)
  | .ok r => orRaise s (.ok (r.2.setPc r.1))

/-- `1nnn` JP nnn (R72). -/
def execJpNnn (nnn : BitVec 12) (s : State) : Host.Outcome State Fault Refusal :=
  orRaise s (.ok (s.setPc (zextNnn nnn)))

/-- `2nnn` CALL nnn (R73): the return address is the advanced `pc`. -/
def execCallNnn (nnn : BitVec 12) (s : State) : Host.Outcome State Fault Refusal :=
  match push s s.pc with
  | .error f => orRaise s (.error f)
  | .ok t => orRaise s (.ok (t.setPc (zextNnn nnn)))

/-- `3xnn` SE Vx, nn (R74). -/
def execSeVxNn (x : Reg) (nn : Byte) (s : State) : Host.Outcome State Fault Refusal :=
  orRaise s (skipIf (regOperand s x == nn) s)

/-- `4xnn` SNE Vx, nn (R75). -/
def execSneVxNn (x : Reg) (nn : Byte) (s : State) : Host.Outcome State Fault Refusal :=
  orRaise s (skipIf (regOperand s x != nn) s)

/-- `5xy0` SE Vx, Vy (R76). -/
def execSeVxVy (x y : Reg) (s : State) : Host.Outcome State Fault Refusal :=
  orRaise s (skipIf (regOperand s x == regOperand s y) s)

/-- `9xy0` SNE Vx, Vy (R77). -/
def execSneVxVy (x y : Reg) (s : State) : Host.Outcome State Fault Refusal :=
  orRaise s (skipIf (regOperand s x != regOperand s y) s)

end Sys2Proof.Machine
end

