-- ==== Sys2Proof/Machine/Display.lean ====
section
/-!
DEFINITION. The display instructions and the sprite engine (spec/43_display.md R110 to R112).
-/

namespace Sys2Proof.Machine

/-- Cell `disp[cx][cy]` of a grid; false outside it (R18). -/
def cellOf (g : Grid) (cx cy : Nat) : Bool :=
  if h : cx ≤ 63 ∧ cy ≤ 31 then (g[cx]'(by omega))[cy]'(by omega) else false

/-- A grid with one cell toggled; a cell outside it is clipped (R111). -/
def toggleCell (g : Grid) (cx cy : Nat) : Grid :=
  if h : cx ≤ 63 ∧ cy ≤ 31 then
    g.set cx ((g[cx]'(by omega)).set cy (!(g[cx]'(by omega))[cy]'(by omega)) (by omega)) (by omega)
  else g

/-- One 1 bit of a sprite: toggle the cell; a toggled cell that ends up false was on, which is a collision (R111).
The second component is the collision so far. -/
def plot (d : Grid × Bool) (cx cy : Nat) : Grid × Bool :=
  (toggleCell d.1 cx cy, d.2 || cellOf d.1 cx cy)

/-- The columns `c`, `c + 1`, ... of one sprite row at `(x0, cy)`; column `c` is bit `7 - c` (R111). -/
def drawColumns (x0 cy : Nat) (row : Byte) : List Nat → Grid × Bool → Grid × Bool
  | [], d => d
  | c :: cs, d => drawColumns x0 cy row cs (if row.getLsbD (7 - c) then plot d (x0 + c) cy else d)

/-- The rows of a sprite, the first at row `cy` of the display (R111). -/
def drawRows (x0 : Nat) : Nat → List Byte → Grid × Bool → Grid × Bool
  | _, [], d => d
  | cy, row :: rows, d => drawRows x0 (cy + 1) rows (drawColumns x0 cy row [0, 1, 2, 3, 4, 5, 6, 7] d)

/-- `00E0` CLS (R110). -/
def execCls (s : State) : Host.Outcome State Fault Refusal :=
  .next { s with disp := Vector.replicate 64 (Vector.replicate 32 false) }

/-- `Dxyn` DRW Vx, Vy, n (R111): the operands and all `n` row bytes are read first, then the grid and `VF` are
written. -/
def execDrwVxVyN (x y : Reg) (n : Nibble) (s : State) : Host.Outcome State Fault Refusal :=
  match readBytes s (indexBase s) n.toNat with
  | .error f => orRaise s (.error f)
  | .ok rows =>
    let d := drawRows (spriteColumn (regOperand s x)) (spriteRow (regOperand s y)) rows (s.disp, false)
    orRaise s (.ok ({ s with disp := d.1 }.setV Reg.vf (flagByte d.2)))

end Sys2Proof.Machine
end

