-- ==== Sys2Proof/Machine/IndexMemory.lean ====
section
/-!
DEFINITION. Index register and memory (spec/42_index_memory.md R100 to R105). `I` is never changed by a memory access.
-/

namespace Sys2Proof.Machine

/-- `Annn` LD I, nnn (R100). -/
def execLdINnn (nnn : BitVec 12) (s : State) : Host.Outcome State Fault Refusal :=
  .next (s.setIndex (zextNnn nnn))

/-- `Fx1E` ADD I, Vx (R101): modulo `2^I_BITS`, no flag. -/
def execAddIVx (x : Reg) (s : State) : Host.Outcome State Fault Refusal :=
  .next (s.setIndex ((s.index + (regOperand s x).toNat) % 2 ^ s.cfg.iBits))

/-- `Fx29` LD F, Vx (R102): unmasked, no memory access. -/
def execLdFVx (x : Reg) (s : State) : Host.Outcome State Fault Refusal :=
  .next (s.setIndex (glyphAddr s (regOperand s x)))

/-- `Fx33` LD B, Vx (R103). -/
def execLdBVx (x : Reg) (s : State) : Host.Outcome State Fault Refusal :=
  orRaise s (writeBytes s (indexBase s) (bcdDigits (regOperand s x)))

/-- `Fx55` LD [I], Vx (R104). -/
def execLdMemVx (x : Reg) (s : State) : Host.Outcome State Fault Refusal :=
  orRaise s (writeBytes s (indexBase s) (regsUpTo s x))

/-- `Fx65` LD Vx, [I] (R105). -/
def execLdVxMem (x : Reg) (s : State) : Host.Outcome State Fault Refusal :=
  match readBytes s (indexBase s) (x.val + 1) with
  | .error f => orRaise s (.error f)
  | .ok bs => orRaise s (.ok (s.setVs 0 bs))

end Sys2Proof.Machine
end

