-- ==== Sys2Proof/Machine/KeypadTimer.lean ====
section
/-!
DEFINITION. Keypad and timers (spec/44_keypad_timer.md R120 to R125).
-/

namespace Sys2Proof.Machine

/-- `Ex9E` SKP Vx (R120): the key index is checked before the skip's fetch. -/
def execSkpVx (x : Reg) (s : State) : Host.Outcome State Fault Refusal :=
  match keyOperand s (regOperand s x) with
  | .error f => orRaise s (.error f)
  | .ok down => orRaise s (skipIf down s)

/-- `ExA1` SKNP Vx (R121). -/
def execSknpVx (x : Reg) (s : State) : Host.Outcome State Fault Refusal :=
  match keyOperand s (regOperand s x) with
  | .error f => orRaise s (.error f)
  | .ok down => orRaise s (skipIf (!down) s)

/-- `Fx0A` LD Vx, K (R122): with no key down the fetch is undone and the next tick executes it again. -/
def execLdVxK (x : Reg) (s : State) : Host.Outcome State Fault Refusal :=
  match firstKeyDown s with
  | none => .next (s.setPc s.pcBack)
  | some k => .next (s.setV x (BitVec.ofNat 8 k))

/-- `Fx07` LD Vx, DT (R123, R143). -/
def execLdVxDt (x : Reg) (s : State) : Host.Outcome State Fault Refusal :=
  .next (s.setV x s.dt.val)

/-- `Fx15` LD DT, Vx (R124, R142). -/
def execLdDtVx (x : Reg) (s : State) : Host.Outcome State Fault Refusal :=
  .next { s with dt := timerSet (regOperand s x) }

/-- `Fx18` LD ST, Vx (R125, R142). -/
def execLdStVx (x : Reg) (s : State) : Host.Outcome State Fault Refusal :=
  .next { s with st := timerSet (regOperand s x) }

end Sys2Proof.Machine
end

