-- ==== Sys2Proof/Machine/LoadAlu.lean ====
section
/-!
DEFINITION. Register load, ALU and random (spec/41_load_alu.md R80 to R93). Operands are read before anything is
written; none of these instructions faults.
-/

namespace Sys2Proof.Machine

/-- `6xnn` LD Vx, nn (R80). -/
def execLdVxNn (x : Reg) (nn : Byte) (s : State) : Host.Outcome State Fault Refusal :=
  .next (s.setV x nn)

/-- `7xnn` ADD Vx, nn (R81): no flag. -/
def execAddVxNn (x : Reg) (nn : Byte) (s : State) : Host.Outcome State Fault Refusal :=
  .next (s.setV x (addResult (regOperand s x) nn))

/-- `8xy0` LD Vx, Vy (R82). -/
def execLdVxVy (x y : Reg) (s : State) : Host.Outcome State Fault Refusal :=
  .next (s.setV x (regOperand s y))

/-- `8xy1` OR Vx, Vy (R83): `VF` untouched. -/
def execOrVxVy (x y : Reg) (s : State) : Host.Outcome State Fault Refusal :=
  .next (s.setV x (regOperand s x ||| regOperand s y))

/-- `8xy2` AND Vx, Vy (R84): `VF` untouched. -/
def execAndVxVy (x y : Reg) (s : State) : Host.Outcome State Fault Refusal :=
  .next (s.setV x (regOperand s x &&& regOperand s y))

/-- `8xy3` XOR Vx, Vy (R85): `VF` untouched. -/
def execXorVxVy (x y : Reg) (s : State) : Host.Outcome State Fault Refusal :=
  .next (s.setV x (regOperand s x ^^^ regOperand s y))

/-- `8xy4` ADD Vx, Vy (R86). -/
def execAddVxVy (x y : Reg) (s : State) : Host.Outcome State Fault Refusal :=
  .next (writeWithFlag s x (addResult (regOperand s x) (regOperand s y)) (carryFlag (regOperand s x) (regOperand s y)))

/-- `8xy5` SUB Vx, Vy (R87): `V[x] - V[y]`. -/
def execSubVxVy (x y : Reg) (s : State) : Host.Outcome State Fault Refusal :=
  .next (writeWithFlag s x (subResult (regOperand s x) (regOperand s y))
    (notBorrowFlag (regOperand s x) (regOperand s y)))

/-- `8xy6` SHR Vx (R88): `V[x]` in place, the `y` field is not used. -/
def execShrVx (x _y : Reg) (s : State) : Host.Outcome State Fault Refusal :=
  .next (writeWithFlag s x (shrResult (regOperand s x)) (shrFlag (regOperand s x)))

/-- `8xy7` SUBN Vx, Vy (R89): `V[y] - V[x]`. -/
def execSubnVxVy (x y : Reg) (s : State) : Host.Outcome State Fault Refusal :=
  .next (writeWithFlag s x (subResult (regOperand s y) (regOperand s x))
    (notBorrowFlag (regOperand s y) (regOperand s x)))

/-- `8xyE` SHL Vx (R90): `V[x]` in place, the `y` field is not used. -/
def execShlVx (x _y : Reg) (s : State) : Host.Outcome State Fault Refusal :=
  .next (writeWithFlag s x (shlResult (regOperand s x)) (shlFlag (regOperand s x)))

/-- `Cxnn` RND Vx, nn (R91): `rnd` is this tick's draw. -/
def execRndVxNn (x : Reg) (nn : Byte) (s : State) : Host.Outcome State Fault Refusal :=
  .next (s.setV x (s.rnd &&& nn))

end Sys2Proof.Machine
end

