-- ==== Sys2Proof/Machine/Tick.lean ====
section
/-!
DEFINITION. One `Tick` with its two inputs explicit (spec/00_scope.md R3, spec/60_exceptions.md R147).
-/

namespace Sys2Proof.Machine

/-- `Execute` on a fetched word (spec/30_encoding.md R55): the one instruction that matches, or `IllegalInstruction` with
the word and the address it was fetched from, `pc - 2`. `s` is the state after the fetch. -/
def execute (w : Word) (s : State) : Host.Outcome State Fault Refusal :=
  match decode w with
  | .ok i => exec i s
  | .error _ => orRaise s (.error (.illegalInstruction w s.pcBack))

/-- `Tick(dt, rnd)` (R3): nothing when halted (R133); else both timers, then fetch, then execute. The timers are updated
even when the fetch or the instruction faults. -/
def tick (dt : Nat) (rnd : Byte) (s : State) : Host.Outcome State Fault Refusal :=
  if s.halted then .next s
  else
    match fetch (beginTick dt rnd s) with
    | .error f => orRaise (beginTick dt rnd s) (.error f)
    | .ok r => execute r.1 r.2

end Sys2Proof.Machine
end

