-- ==== Sys2Proof/Machine/Step.lean ====
section
/-!
DEFINITION. The step of the machine: one `Tick` (spec/00_scope.md R3) whose inputs `dt` and `rnd` are free values
(notes/assumptions/4.md); and the placing of a table row's instruction where the next step fetches.
-/

namespace Sys2Proof.Machine

/-- One step: `Tick(dt, rnd)` with the free inputs of this tick. -/
def step (s : State) : Host.Outcome State Fault Refusal :=
  tick (Config.freeDt s.ticks) (Config.freeRnd s.ticks) s

/-- `s` with an instruction of the opcode table stored at `pc`, and not halted, so that the next step runs it. -/
def State.withFetchWord (s : State) (nbits w : Nat) : State :=
  placeBytes { s with halted := false, fault := none } (tableBytes nbits w).1 (tableBytes nbits w).2

end Sys2Proof.Machine
end

