-- ==== Sys2Proof/Machine/HostOps.lean ====
section
/-!
DEFINITION. The host interface (spec/60_exceptions.md R145 to R152): the five operations, and what the host may observe
between ticks. They act only between ticks (R152) and are no part of `step` (notes/assumptions/6.md).
-/

namespace Sys2Proof.Machine

/-- `Reset()` (R150): every piece of the spec's state at its reset value. The model's own fields stay as they are: the
configuration, the latched draw, which no instruction reads before the next tick latches another, and the index of the
free inputs, so that the inputs after a reset are fresh (notes/assumptions/4.md). -/
def hostReset (s : State) : State := { State.resetWith s.cfg with rnd := s.rnd, ticks := s.ticks }

/-- `mem[a + k] <- image[k]` for every byte of an image, in order (R146). -/
def placeImage (s : State) (a : Nat) : List Byte → State
  | [] => s
  | b :: bs => placeImage { s with mem := Memory.write s.cfg s.mem a b } (a + 1) bs

/-- `Load(image)` (R146): an image longer than `4096 - PROG_START` is refused with no state change. -/
def load (image : List Byte) (s : State) : Host.Outcome State Fault Refusal :=
  if image.length > 4096 - s.cfg.progStart then .refused (.imageTooLong image.length)
  else .next (placeImage (hostReset s) s.cfg.progStart image)

/-- `KeySet(k, pressed)` (R149): an index above 15 is refused with no state change. -/
def keySet (k : Nat) (pressed : Bool) (s : State) : Host.Outcome State Fault Refusal :=
  if h : k < 16 then .next { s with key := s.key.set k pressed h }
  else .refused (.keyIndexOutOfRange k)

/-- `Render(buf)` (R148): the 2048 entries of the row-major buffer; entry `cy * 64 + cx` shows `disp[cx][cy]`. It
changes no state. -/
def render (s : State) : List Nat :=
  (List.range 2048).map fun p => if cellOf s.disp (p % 64) (p / 64) then s.cfg.colorOn else s.cfg.colorOff

/-- What the host may observe between ticks (R151). -/
structure HostView where
  buffer : List Nat
  dtVal : Byte
  stVal : Byte
  halted : Bool
  fault : Option Fault
  deriving DecidableEq, Repr

/-- The host's observation of a state (R143, R151). -/
def observe (s : State) : HostView where
  buffer := render s
  dtVal := s.dt.val
  stVal := s.st.val
  halted := s.halted
  fault := s.fault

/-- The five host operations and nothing else (R145). -/
inductive Move where
  | reset
  | load (image : List Byte)
  | tick (dt : Nat) (rnd : Byte)
  | render
  | keySet (k : Nat) (pressed : Bool)
  deriving DecidableEq, Repr

/-- The effect of a host operation on the core. -/
def move (m : Move) (s : State) : Host.Outcome State Fault Refusal :=
  match m with
  | .reset => .next (hostReset s)
  | .load image => load image s
  | .tick dt rnd => tick dt rnd s
  | .render => .next s
  | .keySet k pressed => keySet k pressed s

/-- A fault's cause code (R132, D31). -/
def faultCode : Fault → Nat
  | .illegalInstruction _ _ => 1
  | .stackUnderflow => 2
  | .stackOverflow _ => 3
  | .addressFault _ _ => 4
  | .keyIndexFault _ => 5

end Sys2Proof.Machine
end

