-- ==== Sys2Proof/Safety.lean ====
section
/-!
DEFINITION. The terms claims use: what is unchanged between two states, the invariant of the machine, what the host can
reach, and what counts as a safe run.
-/

namespace Sys2Proof.Safety

open Sys2Proof.Machine

/-- What a frame allows to change; by default nothing. `mem a`: the byte at address `a`. -/
structure MayChange where
  regs : Reg → Prop := fun _ => False
  pc : Prop := False
  index : Prop := False
  stack : Prop := False
  mem : Nat → Prop := fun _ => False
  disp : Prop := False
  dt : Prop := False
  st : Prop := False

/-- From `s` to `t` nothing changed but what `m` allows. The key vector, the configuration, the latched draw, the tick
count and the fault state are never allowed to change. Memory is compared through the read of one byte. -/
structure Unchanged (m : MayChange) (s t : State) : Prop where
  regs : ∀ r : Reg, ¬ m.regs r → t.v[r.val] = s.v[r.val]
  pc : ¬ m.pc → t.pc = s.pc
  index : ¬ m.index → t.index = s.index
  stack : ¬ m.stack → t.stack = s.stack ∧ t.sp = s.sp
  mem : ∀ a, ¬ m.mem a → t.byteAt a = s.byteAt a
  disp : ¬ m.disp → t.disp = s.disp
  dt : ¬ m.dt → t.dt = s.dt
  st : ¬ m.st → t.st = s.st
  key : t.key = s.key
  cfg : t.cfg = s.cfg
  rnd : t.rnd = s.rnd
  ticks : t.ticks = s.ticks
  halted : t.halted = s.halted
  fault : t.fault = s.fault

/-- `n` bytes from address `a` on are all in reach: inside memory, or the policy wraps (spec/20_memory.md R35). -/
def InReach (c : Config) (a n : Nat) : Prop := c.addrPolicy = .wrap ∨ a + n ≤ 4096

/-- Some of `n` bytes from address `a` on fault: the policy is `fault` and one of them lies above 4095 (R35). -/
def OutOfReach (c : Config) (a n : Nat) : Prop := c.addrPolicy = .fault ∧ 0 < n ∧ 4096 < a + n

/-- The word the next fetch reads, when its bytes are in reach (spec/30_encoding.md R50 to R52). -/
def fetchedWord (s : State) : Word :=
  wordOfBytes (s.byteAt (s.pc % 4096)) (s.byteAt ((s.pc + 1) % 4096))

/-- The state an instruction executes in: timers updated, the draw latched, `pc` advanced by 2 (spec/00_scope.md R3,
spec/10_state.md R12). -/
def afterFetch (dt : Nat) (rnd : Byte) (s : State) : State := (beginTick dt rnd s).setPc ((s.pc + 2) % 2 ^ s.cfg.pcBits)

/-- What a taken skip in `s` answers (spec/40_control.md R70): `pc` past one more instruction, or the address fault of
the extra fetch with `pc` advanced only once. -/
def TakenSkip (s : State) (o : Host.Outcome State Fault Refusal) : Prop :=
  (InReach s.cfg s.pc 2 → o = .next (s.setPc ((s.pc + 2) % 2 ^ s.cfg.pcBits))) ∧
    (OutOfReach s.cfg s.pc 2 → o = .next (raise (.addressFault (max s.pc 4096) .fetch) s))

/-- Cell `(cx, cy)` lies under a 1 bit of the sprite `Dxyn` draws from `s` (spec/43_display.md R111): row `r` of the `n`
rows is the byte at `I + r`, column `c` its bit `7 - c`, and only the start coordinates are reduced. -/
def SpriteCovers (s : State) (x y : Reg) (n : Nibble) (cx cy : Nat) : Prop :=
  ∃ r c, r < n.toNat ∧ c < 8 ∧ cx = s.v[x.val].toNat % 64 + c ∧ cy = s.v[y.val].toNat % 32 + r ∧
    (s.byteAt ((s.index + r) % 4096)).getLsbD (7 - c) = true

/-- The invariant of the machine, between ticks: what every reset state has and every host operation keeps. -/
structure Legal (s : State) : Prop where
  /-- The configuration meets spec/00_scope.md R6. -/
  cfgOk : s.cfg.Ok
  /-- Memory is in canonical form, so equal memories are equal data. -/
  memWf : Memory.wf s.cfg s.mem = true
  /-- The stack array has `STACK_DEPTH` entries (spec/10_state.md R15). -/
  stackLength : s.stack.length = s.cfg.stackDepth
  /-- `0 ≤ sp ≤ STACK_DEPTH` (R15). -/
  spLe : s.sp ≤ s.cfg.stackDepth
  /-- `pc` fits its width (R12). -/
  pcFits : s.pc < 2 ^ s.cfg.pcBits
  /-- `I` fits its width (spec/10_state.md R14). -/
  indexFits : s.index < 2 ^ s.cfg.iBits
  /-- Every entry in use fits the width of `pc` (R15). -/
  returnsFit : ∀ j a, j < s.sp → s.stack[j]? = some a → a < 2 ^ s.cfg.pcBits
  /-- Under `ADDR_POLICY = fault`, `pc ≤ 4096` (spec/10_state.md R13). -/
  pcLe : s.cfg.addrPolicy = .fault → s.pc ≤ 4096
  /-- Under `ADDR_POLICY = fault` every entry in use is at most 4096 too; nothing is said of the dead entries. -/
  returnsLe : s.cfg.addrPolicy = .fault → ∀ j a, j < s.sp → s.stack[j]? = some a → a ≤ 4096
  /-- After an update either the value is 0 or less than a period is left over (spec/60_exceptions.md R141). -/
  dtDrained : s.dt.val = 0 ∨ s.dt.acc < s.cfg.timerPeriod
  /-- As for the delay timer. -/
  stDrained : s.st.val = 0 ∨ s.st.acc < s.cfg.timerPeriod
  /-- The fault record is there exactly when the core is halted (spec/10_state.md R21). -/
  faultIffHalted : s.fault.isSome = s.halted

/-- What a host can bring the core to, under a configuration, by the five operations of R145. -/
inductive Reachable (c : Config) : State → Prop where
  | reset : Reachable c (State.resetWith c)
  | move {m : Move} {s t : State} : Reachable c s → Machine.move m s = .next t → Reachable c t

/-- A safe state: no fault has been raised. A halted state is never a successful end of a run (R133). -/
def Running (s : State) : Prop := s.halted = false

end Sys2Proof.Safety
end

