-- ==== Sys2Proof/Certificates/Slice0/Obligations.lean ====
section
/-!
DEFINITION. The statements for the provers. `exec i s` runs an instruction in the state after the fetch, where `pc` is
already the address of the next sequential instruction (spec/10_state.md R12); `tick dt rnd s` is a whole tick with its
two inputs; `step` is a tick whose inputs are free values. A state's configuration is arbitrary unless a hypothesis
says otherwise. The fields `cfg`, `rnd` and `ticks` are the model's own (notes/assumptions/1.md and 4.md): where a frame
or a clause says what becomes of them, it says so of the model. "Wrapped" addresses `a % 4096` are `a` itself for every address
inside memory.
-/

open Sys2Proof Sys2Proof.Machine Sys2Proof.Safety

/-! Encoding and decoding. -/

/-- R52, R53, R54, R56: decoding an encoded instruction gives it back, for every instruction and every operand value. -/
def Obligations.DecodeOfEncodeIsIdentity : Prop :=
  ∀ i : Instr, decode (encode i) = .ok i

/-- R53, R56: a word the decoder accepts is the encoding of what it decodes to: no bit of it is lost. -/
def Obligations.EncodeOfDecodedWordIsThatWord : Prop :=
  ∀ (w : Word) (i : Instr), decode w = .ok i → encode i = w

/-- R55: "they are mutually exclusive (no word matches two)". -/
def Obligations.OpcodePatternsAreMutuallyExclusive : Prop :=
  ∀ (w : Word) (r q : OpcodeRow), r ∈ opcodeTable → q ∈ opcodeTable → r.selects w = true → q.selects w = true → r = q

/-- R55, R56: a word is decoded iff one of the 33 patterns matches it, and then to the instruction of that pattern, with
the fields of R53; executing it is executing that instruction; every other word raises `IllegalInstruction(w, pc - 2)`, the
subtraction modulo `2^PC_BITS`. -/
def Obligations.ExecuteDispatchesByPatternMatch : Prop :=
  ∀ (w : Word) (s : State),
    (∀ r ∈ opcodeTable, r.selects w = true →
      ∃ i, decode w = .ok i ∧ i.row = r ∧ encode i = w ∧ execute w s = exec i s) ∧
    ((∀ r ∈ opcodeTable, r.selects w = false) →
      ∃ origin : Nat, (origin : Int) = ((s.pc : Int) - 2) % (2 ^ s.cfg.pcBits : Nat) ∧
        execute w s = .next (raise (.illegalInstruction w origin) s))

/-- R57: the illegal words are exactly the seven groups of its table. -/
def Obligations.IllegalWordsAreTheSevenGroups : Prop :=
  ∀ w : Word, (∃ g, decode w = .error g) ↔
    (nibble3 w = 0x0 ∧ w ≠ 0x00E0 ∧ w ≠ 0x00EE) ∨
    (nibble3 w = 0x5 ∧ nibble0 w ≠ 0x0) ∨
    (nibble3 w = 0x8 ∧ (nibble0 w = 0x8 ∨ nibble0 w = 0x9 ∨ nibble0 w = 0xA ∨ nibble0 w = 0xB ∨ nibble0 w = 0xC ∨
      nibble0 w = 0xD ∨ nibble0 w = 0xF)) ∨
    (nibble3 w = 0x9 ∧ nibble0 w ≠ 0x0) ∨
    nibble3 w = 0xB ∨
    (nibble3 w = 0xE ∧ w.extractLsb' 0 8 ≠ 0x9E ∧ w.extractLsb' 0 8 ≠ 0xA1) ∨
    (nibble3 w = 0xF ∧ ∀ kk ∈ [0x07#8, 0x0A#8, 0x15#8, 0x18#8, 0x1E#8, 0x29#8, 0x33#8, 0x55#8, 0x65#8],
      w.extractLsb' 0 8 ≠ kk)

/-- Words of spec/95_test_vectors.md 2.1 and one word a family, read from R56. -/
def Obligations.SampleWordsDecodeAsTheTableSays : Prop :=
  decode 0x00E0 = .ok .cls ∧ decode 0xE000 = .error .eGroup ∧ decode 0x8AB4 = .ok (.addVxVy 10 11) ∧
    decode 0xD123 = .ok (.drwVxVyN 1 2 3) ∧ decode 0xA2F0 = .ok (.ldINnn 0x2F0) ∧
    decode 0x6A2C = .ok (.ldVxNn 10 0x2C) ∧ decode 0xF565 = .ok (.ldVxMem 5) ∧ decode 0x2300 = .ok (.callNnn 0x300) ∧
    decode 0xE5A1 = .ok (.sknpVx 5)

/-! The tick. -/

/-- R3, R50, R55: when the two bytes at `pc` are in reach and decode to an instruction, a tick of a running core is that
instruction executed in the state after the fetch (timers updated, draw latched, `pc + 2`), and a step is the same with
the free inputs of this tick. Any parity of `pc` (R38). -/
def Obligations.StepRunsTheDecodedInstruction : Prop :=
  ∀ (s : State) (i : Instr), s.halted = false → InReach s.cfg s.pc 2 → decode (fetchedWord s) = .ok i →
    (∀ dt rnd, tick dt rnd s = exec i (afterFetch dt rnd s)) ∧
      step s = exec i (afterFetch (Config.freeDt s.ticks) (Config.freeRnd s.ticks) s)

/-- R55, R57, R131: an illegal word halts the core with the word and the address it was fetched from; `pc` is advanced
and both timers are updated. The response to a fault is the spec's decision D15, its record D31. That `pc` fits its width
is part of the invariant `Legal`. -/
def Obligations.IllegalWordHaltsWithItsAddress : Prop :=
  ∀ (s : State) (g : IllegalWord) (dt : Nat) (rnd : Byte), s.halted = false → s.pc < 2 ^ s.cfg.pcBits →
    InReach s.cfg s.pc 2 → decode (fetchedWord s) = .error g →
    tick dt rnd s = .next (raise (.illegalInstruction (fetchedWord s) s.pc) (afterFetch dt rnd s))

/-- R51 (the two policies are the spec's decision D7): under `fault`, a fetch at the top of memory halts the core with the
first address out of range, `pc` keeps its value and the timers are updated; under `wrap`, the bytes come from
`pc mod 4096` and `(pc + 1) mod 4096`, whatever `pc` is. -/
def Obligations.FetchAtTheTopOfMemoryFollowsThePolicy : Prop :=
  ∀ (s : State) (dt : Nat) (rnd : Byte), s.halted = false →
    (s.cfg.addrPolicy = .fault → 4095 ≤ s.pc →
      tick dt rnd s = .next (raise (.addressFault (max s.pc 4096) .fetch) (beginTick dt rnd s))) ∧
    (s.cfg.addrPolicy = .wrap →
      tick dt rnd s = execute (wordOfBytes (s.byteAt (s.pc % 4096)) (s.byteAt ((s.pc + 1) % 4096)))
        ((beginTick dt rnd s).setPc ((s.pc + 2) % 2 ^ s.cfg.pcBits)))

/-- R133 (the spec's decision D15): a halted core ignores `Tick`, `Render` and `KeySet` still work on it, and only
`Reset` and `Load` lead out of the halted state. -/
def Obligations.HaltedStateIsAbsorbing : Prop :=
  ∀ s : State, s.halted = true →
    step s = .next s ∧ (∀ dt rnd, tick dt rnd s = .next s) ∧ Machine.move .render s = .next s ∧
    (∀ k b, k < 16 → ∃ t, Machine.move (.keySet k b) s = .next t) ∧
    (∀ m t, Machine.move m s = .next t → m ≠ .reset → (∀ image, m ≠ .load image) →
      t.halted = true ∧ t.fault = s.fault) ∧
    (∃ t, Machine.move .reset s = .next t ∧ t.halted = false ∧ t.fault = none) ∧
    (∀ image t, Machine.move (.load image) s = .next t → t.halted = false ∧ t.fault = none)

/-- The model's totality (R130 to R133 leave no stop but the halted state, which is a next state): every step answers a
next state. -/
def Obligations.EveryStepAnswersANextState : Prop :=
  ∀ s : State, ∃ t, step s = .next t

/-- R131 (the spec's decision D30): an instruction either leaves the fault state alone, or its whole effect is the
record of one fault: it writes nothing else. -/
def Obligations.FaultsArePrecise : Prop :=
  ∀ (i : Instr) (s t : State), exec i s = .next t →
    (t.halted = s.halted ∧ t.fault = s.fault) ∨ ∃ f, t = raise f s

/-- R132: "With `ADDR_POLICY = wrap`, code 4 never occurs." -/
def Obligations.WrapPolicyNeverRaisesAnAddressFault : Prop :=
  ∀ (s t : State) (dt : Nat) (rnd : Byte) (a : Nat) (k : AccessKind), s.cfg.addrPolicy = .wrap → s.fault = none →
    tick dt rnd s = .next t → t.fault ≠ some (.addressFault a k)

/-- R3, R147: a tick of a running core leaves the keys, and leaves each timer as its update by `dt` left it, or as an
instruction of this tick set it. That a set clears the accumulator is the spec's decision D12 (notes/assumptions/14.md).
The counted tick, the latched draw and the constant configuration are the model's own fields, its choice
(notes/assumptions/1.md and 4.md). -/
def Obligations.TickUpdatesBothTimersFirst : Prop :=
  ∀ (s t : State) (dt : Nat) (rnd : Byte), s.halted = false → tick dt rnd s = .next t →
    t.ticks = s.ticks + 1 ∧ t.rnd = rnd ∧ t.key = s.key ∧ t.cfg = s.cfg ∧
    (t.dt = timerUpdate s.cfg.timerPeriod s.dt dt ∨
      ∃ x, decode (fetchedWord s) = .ok (.ldDtVx x) ∧ t.dt = timerSet s.v[x.val]) ∧
    (t.st = timerUpdate s.cfg.timerPeriod s.st dt ∨
      ∃ x, decode (fetchedWord s) = .ok (.ldStVx x) ∧ t.st = timerSet s.v[x.val])

/-! Timers. -/

/-- R141: "the number of decrements in one update is `min(val, floor(acc / TIMER_PERIOD))` with the values before the
loop", and after it either `val = 0` or less than a period is left over. The rule marks these as derived there. -/
def Obligations.TimerUpdateTakesOffWholePeriods : Prop :=
  ∀ (period : Nat) (T : Timer) (dt : Nat), 1 ≤ period →
    (timerUpdate period T dt).val.toNat = T.val.toNat - min T.val.toNat ((T.acc + dt) / period) ∧
    (timerUpdate period T dt).acc = T.acc + dt - period * min T.val.toNat ((T.acc + dt) / period) ∧
    ((timerUpdate period T dt).val = 0 ∨ (timerUpdate period T dt).acc < period)

/-- spec/95_test_vectors.md S7: a timer of value 3 advanced by exactly 3 periods, at once or one by one, reaches 0, and
a timer at 0 stays there. -/
def Obligations.TimerOfThreePeriodsReachesZero : Prop :=
  ∀ period : Nat, 1 ≤ period →
    timerUpdate period ⟨3, 0⟩ (3 * period) = ⟨0, 0⟩ ∧
    timerUpdate period (timerUpdate period (timerUpdate period ⟨3, 0⟩ period) period) period = ⟨0, 0⟩ ∧
    ∀ T dt, T.val = 0 → (timerUpdate period T dt).val = 0

/-! Control transfer. -/

/-- R72. -/
def Obligations.JumpSetsPcToItsLiteral : Prop :=
  ∀ (nnn : BitVec 12) (s : State), ∃ t, exec (.jpNnn nnn) s = .next t ∧
    t.pc = nnn.toNat ∧ Unchanged { pc := True } s t

/-- spec/95_test_vectors.md S10: a jump to its own address leaves everything but the timers as it was, tick after
tick; the tick's inputs are noted in the model's own fields (notes/assumptions/4.md). -/
def Obligations.JumpToItselfLeavesPcConstant : Prop :=
  ∀ (s : State) (nnn : BitVec 12) (dt : Nat) (rnd : Byte), s.halted = false → InReach s.cfg s.pc 2 →
    decode (fetchedWord s) = .ok (.jpNnn nnn) → nnn.toNat = s.pc →
    tick dt rnd s = .next (beginTick dt rnd s)

/-- R73, with the spec's decision D4 at the bound: CALL pushes the advanced `pc` and jumps; on a full stack it raises
`StackOverflow` with the return address and does nothing else. -/
def Obligations.CallPushesTheReturnAddress : Prop :=
  ∀ (nnn : BitVec 12) (s : State), s.stack.length = s.cfg.stackDepth →
    (s.sp < s.cfg.stackDepth → ∃ t, exec (.callNnn nnn) s = .next t ∧
      t.pc = nnn.toNat ∧ t.sp = s.sp + 1 ∧ t.stack.length = s.stack.length ∧ t.stack[s.sp]? = some s.pc ∧
      (∀ j, j ≠ s.sp → t.stack[j]? = s.stack[j]?) ∧ Unchanged { pc := True, stack := True } s t) ∧
    (s.sp = s.cfg.stackDepth → exec (.callNnn nnn) s = .next (raise (.stackOverflow s.pc) s))

/-- R71: RET pops the top entry into `pc`, which stays behind as a dead value; on an empty stack it raises
`StackUnderflow` and does nothing else. -/
def Obligations.ReturnPopsTheStackIntoPc : Prop :=
  ∀ s : State,
    (∀ (n : Nat) (a : Nat), s.sp = n + 1 → s.stack[n]? = some a → ∃ t, exec .ret s = .next t ∧
      t.pc = a ∧ t.sp = n ∧ t.stack = s.stack ∧ Unchanged { pc := True, stack := True } s t) ∧
    (s.sp = 0 → exec .ret s = .next (raise .stackUnderflow s))

/-- R74, R75, R76, R77 with R70: a skip whose condition is false changes nothing; one whose condition is true passes one
more instruction by a whole extra fetch. The comparison is of whole bytes; `x = y` and `x = 15` are covered. -/
def Obligations.ComparingSkipsPassOneInstruction : Prop :=
  ∀ (x y : Reg) (nn : Byte) (s : State),
    (s.v[x.val] = nn → TakenSkip s (exec (.seVxNn x nn) s)) ∧
    (s.v[x.val] ≠ nn → exec (.seVxNn x nn) s = .next s) ∧
    (s.v[x.val] ≠ nn → TakenSkip s (exec (.sneVxNn x nn) s)) ∧
    (s.v[x.val] = nn → exec (.sneVxNn x nn) s = .next s) ∧
    (s.v[x.val] = s.v[y.val] → TakenSkip s (exec (.seVxVy x y) s)) ∧
    (s.v[x.val] ≠ s.v[y.val] → exec (.seVxVy x y) s = .next s) ∧
    (s.v[x.val] ≠ s.v[y.val] → TakenSkip s (exec (.sneVxVy x y) s)) ∧
    (s.v[x.val] = s.v[y.val] → exec (.sneVxVy x y) s = .next s)

/-! Load, ALU, random. -/

/-- R80. -/
def Obligations.LoadLiteralSetsRegister : Prop :=
  ∀ (x : Reg) (nn : Byte) (s : State), ∃ t, exec (.ldVxNn x nn) s = .next t ∧
    t.v[x.val] = nn ∧ Unchanged { regs := fun r => r = x } s t

/-- R81: modulo 256, no flag. -/
def Obligations.AddLiteralWrapsWithoutFlag : Prop :=
  ∀ (x : Reg) (nn : Byte) (s : State), ∃ t, exec (.addVxNn x nn) s = .next t ∧
    t.v[x.val].toNat = (s.v[x.val].toNat + nn.toNat) % 256 ∧ Unchanged { regs := fun r => r = x } s t

/-- R82. -/
def Obligations.AssignCopiesRegister : Prop :=
  ∀ (x y : Reg) (s : State), ∃ t, exec (.ldVxVy x y) s = .next t ∧
    t.v[x.val] = s.v[y.val] ∧ Unchanged { regs := fun r => r = x } s t

/-- R83, R84, R85: that the three logical operations leave `VF` alone is the spec's decision D20. -/
def Obligations.LogicOperationsLeaveTheFlag : Prop :=
  ∀ (x y : Reg) (s : State),
    (∃ t, exec (.orVxVy x y) s = .next t ∧ t.v[x.val] = s.v[x.val] ||| s.v[y.val] ∧
      Unchanged { regs := fun r => r = x } s t) ∧
    (∃ t, exec (.andVxVy x y) s = .next t ∧ t.v[x.val] = s.v[x.val] &&& s.v[y.val] ∧
      Unchanged { regs := fun r => r = x } s t) ∧
    (∃ t, exec (.xorVxVy x y) s = .next t ∧ t.v[x.val] = s.v[x.val] ^^^ s.v[y.val] ∧
      Unchanged { regs := fun r => r = x } s t)

/-- R86 (with R92): the truncated sum, and `VF` = 1 iff the unsigned sum exceeds 255; with `x = 15` the flag stays. -/
def Obligations.AddRegistersSetsCarry : Prop :=
  ∀ (x y : Reg) (s : State), ∃ t, exec (.addVxVy x y) s = .next t ∧
    (x ≠ 15 → t.v[x.val].toNat = (s.v[x.val].toNat + s.v[y.val].toNat) % 256) ∧
    t.v[15] = (if s.v[x.val].toNat + s.v[y.val].toNat > 255 then 1 else 0) ∧
    Unchanged { regs := fun r => r = x ∨ r = 15 } s t

/-- R87 (with R92): `V[x] - V[y]` modulo 256, and `VF` = 1 iff `V[x] ≥ V[y]` before; with `x = 15` the flag stays. -/
def Obligations.SubtractSetsNotBorrow : Prop :=
  ∀ (x y : Reg) (s : State), ∃ t, exec (.subVxVy x y) s = .next t ∧
    (x ≠ 15 → (t.v[x.val].toNat : Int) = ((s.v[x.val].toNat : Int) - s.v[y.val].toNat) % 256) ∧
    t.v[15] = (if s.v[x.val].toNat ≥ s.v[y.val].toNat then 1 else 0) ∧
    Unchanged { regs := fun r => r = x ∨ r = 15 } s t

/-- R89 (with R92): `V[y] - V[x]` modulo 256, and `VF` = 1 iff `V[y] ≥ V[x]` before; with `x = 15` the flag stays. -/
def Obligations.ReverseSubtractSetsNotBorrow : Prop :=
  ∀ (x y : Reg) (s : State), ∃ t, exec (.subnVxVy x y) s = .next t ∧
    (x ≠ 15 → (t.v[x.val].toNat : Int) = ((s.v[y.val].toNat : Int) - s.v[x.val].toNat) % 256) ∧
    t.v[15] = (if s.v[y.val].toNat ≥ s.v[x.val].toNat then 1 else 0) ∧
    Unchanged { regs := fun r => r = x ∨ r = 15 } s t

/-- R88, R90 (with R92): `V[x]` shifted in place by one with a zero moved in, `VF` = the bit moved out, for every value
of the `y` field. That `V[x]` and not `V[y]` is shifted is the spec's decision D8. -/
def Obligations.ShiftsMoveOneBitIntoTheFlag : Prop :=
  ∀ (x y : Reg) (s : State),
    (∃ t, exec (.shrVx x y) s = .next t ∧ (x ≠ 15 → t.v[x.val] = s.v[x.val] >>> 1) ∧
      t.v[15] = (if s.v[x.val].getLsbD 0 then 1 else 0) ∧ Unchanged { regs := fun r => r = x ∨ r = 15 } s t) ∧
    (∃ t, exec (.shlVx x y) s = .next t ∧ (x ≠ 15 → t.v[x.val] = s.v[x.val] <<< 1) ∧
      t.v[15] = (if s.v[x.val].getLsbD 7 then 1 else 0) ∧ Unchanged { regs := fun r => r = x ∨ r = 15 } s t)

/-- R91: the draw of this tick, masked by the literal, for every draw; the draw as a free input of the tick is the
spec's decision D22. -/
def Obligations.RandomIsTheDrawMasked : Prop :=
  ∀ (x : Reg) (nn : Byte) (s : State),
    (∃ t, exec (.rndVxNn x nn) s = .next t ∧ t.v[x.val] = s.rnd &&& nn ∧ Unchanged { regs := fun r => r = x } s t) ∧
    ∀ dt rnd, s.halted = false → InReach s.cfg s.pc 2 → decode (fetchedWord s) = .ok (.rndVxNn x nn) →
      ∃ t, tick dt rnd s = .next t ∧ t.v[x.val] = rnd &&& nn

/-! Index register and memory. -/

/-- R100. -/
def Obligations.SetIndexLoadsItsLiteral : Prop :=
  ∀ (nnn : BitVec 12) (s : State), ∃ t, exec (.ldINnn nnn) s = .next t ∧
    t.index = nnn.toNat ∧ Unchanged { index := True } s t

/-- R101: no flag, no fault; the modulus `2^I_BITS` is the spec's decision D6 (notes/assumptions/16.md). -/
def Obligations.AddToIndexWrapsWithoutFlag : Prop :=
  ∀ (x : Reg) (s : State), ∃ t, exec (.addIVx x) s = .next t ∧
    t.index = (s.index + s.v[x.val].toNat) % 2 ^ s.cfg.iBits ∧ Unchanged { index := True } s t

/-- R102: `FONT_BASE + V[x] * 5`, unmasked (the spec's decision D26); under every configuration R6 allows it fits
I_BITS. -/
def Obligations.FontAddressIsUnmasked : Prop :=
  ∀ (x : Reg) (s : State), ∃ t, exec (.ldFVx x) s = .next t ∧
    t.index = s.cfg.fontBase + s.v[x.val].toNat * 5 ∧ (s.cfg.Ok → t.index < 2 ^ s.cfg.iBits) ∧ Unchanged { index := True } s t

/-- R103: the hundreds, tens and ones at `I`, `I + 1`, `I + 2`, whose place values sum to `V[x]`; with an address out of
reach (the spec's decisions D7, D30) the lowest such address is recorded and no byte is written. -/
def Obligations.BcdStoreWritesThreeDigits : Prop :=
  ∀ (x : Reg) (s : State), Memory.wf s.cfg s.mem = true →
    (InReach s.cfg s.index 3 → ∃ t, exec (.ldBVx x) s = .next t ∧
      (t.byteAt (s.index % 4096)).toNat = s.v[x.val].toNat / 100 ∧
      (t.byteAt ((s.index + 1) % 4096)).toNat = s.v[x.val].toNat / 10 % 10 ∧
      (t.byteAt ((s.index + 2) % 4096)).toNat = s.v[x.val].toNat % 10 ∧
      Unchanged { mem := fun a => ∃ j, j < 3 ∧ a = (s.index + j) % 4096 } s t) ∧
    (OutOfReach s.cfg s.index 3 →
      exec (.ldBVx x) s = .next (raise (.addressFault (max s.index 4096) .write) s))

/-- R104: `V[0]`..`V[x]` at `I`..`I + x`, `I` unchanged (the spec's decision D19); with an address out of reach the lowest
is recorded and no byte is written (D7, D30). -/
def Obligations.RegisterDumpStoresUpToX : Prop :=
  ∀ (x : Reg) (s : State), Memory.wf s.cfg s.mem = true →
    (InReach s.cfg s.index (x.val + 1) → ∃ t, exec (.ldMemVx x) s = .next t ∧
      (∀ r : Reg, r ≤ x → t.byteAt ((s.index + r.val) % 4096) = s.v[r.val]) ∧
      Unchanged { mem := fun a => ∃ j, j ≤ x.val ∧ a = (s.index + j) % 4096 } s t) ∧
    (OutOfReach s.cfg s.index (x.val + 1) →
      exec (.ldMemVx x) s = .next (raise (.addressFault (max s.index 4096) .write) s))

/-- R105: `V[0]`..`V[x]` from `I`..`I + x`, `I` unchanged (the spec's decision D19); with an address out of reach the
lowest is recorded and no register is written (D7, D30). -/
def Obligations.RegisterLoadReadsUpToX : Prop :=
  ∀ (x : Reg) (s : State),
    (InReach s.cfg s.index (x.val + 1) → ∃ t, exec (.ldVxMem x) s = .next t ∧
      (∀ r : Reg, r ≤ x → t.v[r.val] = s.byteAt ((s.index + r.val) % 4096)) ∧
      Unchanged { regs := fun r => r ≤ x } s t) ∧
    (OutOfReach s.cfg s.index (x.val + 1) →
      exec (.ldVxMem x) s = .next (raise (.addressFault (max s.index 4096) .read) s))

/-- R104, R105: a load at the index of a dump gives the dumped registers back, whatever the registers hold by then. -/
def Obligations.LoadAfterDumpRestoresRegisters : Prop :=
  ∀ (x : Reg) (s : State) (v : Vector Byte 16), Memory.wf s.cfg s.mem = true →
    InReach s.cfg s.index (x.val + 1) →
    ∃ t u, exec (.ldMemVx x) s = .next t ∧ exec (.ldVxMem x) { t with v := v } = .next u ∧
      (∀ r : Reg, r ≤ x → u.v[r.val] = s.v[r.val]) ∧ (∀ r : Reg, ¬ r ≤ x → u.v[r.val] = v[r.val])

/-- R32, R34: "a write changes exactly the addressed byte"; the effective address is that of R35. -/
def Obligations.WriteChangesExactlyTheAddressedByte : Prop :=
  ∀ (s : State) (a : Nat) (b : Byte), Memory.wf s.cfg s.mem = true → InReach s.cfg a 1 →
    ∃ t, memWrite s a b = .ok t ∧ Memory.wf t.cfg t.mem = true ∧ t.byteAt (a % 4096) = b ∧
      (∀ k, k ≠ a % 4096 → t.byteAt k = s.byteAt k) ∧ memRead t a .read = .ok b

/-- R42: an instruction that stores into its successor's bytes changes what the next tick executes. -/
def Obligations.StoreIsSeenByTheNextFetch : Prop :=
  ∀ (x : Reg) (s : State), Memory.wf s.cfg s.mem = true → s.halted = false → 1 ≤ x.val → s.index = s.pc →
    InReach s.cfg s.pc (x.val + 1) →
    ∃ t, exec (.ldMemVx x) s = .next t ∧
      ∀ dt rnd, tick dt rnd t = execute (wordOfBytes s.v[0] s.v[1]) (afterFetch dt rnd t)

/-! Display. -/

/-- R110. -/
def Obligations.ClearScreenTurnsEveryCellOff : Prop :=
  ∀ s : State, ∃ t, exec .cls s = .next t ∧ (∀ cx cy, cellOf t.disp cx cy = false) ∧ Unchanged { disp := True } s t

/-- R111: exactly the cells under an unclipped 1 bit are toggled, and `VF` is 1 iff one of them was on; operands before
the reset of `VF` and all rows read are the spec's decisions D9 and D10. With a row out of reach the lowest address is
recorded and neither `VF` nor a cell is written (D7, D30). -/
def Obligations.DrawTogglesTheSpriteCells : Prop :=
  ∀ (x y : Reg) (n : Nibble) (s : State),
    (InReach s.cfg s.index n.toNat ∨ n = 0 → ∃ t, exec (.drwVxVyN x y n) s = .next t ∧
      (∀ cx cy, cx ≤ 63 → cy ≤ 31 → SpriteCovers s x y n cx cy → cellOf t.disp cx cy = !cellOf s.disp cx cy) ∧
      (∀ cx cy, cx ≤ 63 → cy ≤ 31 → ¬ SpriteCovers s x y n cx cy → cellOf t.disp cx cy = cellOf s.disp cx cy) ∧
      ((∃ cx cy, cx ≤ 63 ∧ cy ≤ 31 ∧ SpriteCovers s x y n cx cy ∧ cellOf s.disp cx cy = true) → t.v[15] = 1) ∧
      ((¬ ∃ cx cy, cx ≤ 63 ∧ cy ≤ 31 ∧ SpriteCovers s x y n cx cy ∧ cellOf s.disp cx cy = true) → t.v[15] = 0) ∧
      Unchanged { regs := fun r => r = 15, disp := True } s t) ∧
    (OutOfReach s.cfg s.index n.toNat →
      exec (.drwVxVyN x y n) s = .next (raise (.addressFault (max s.index 4096) .read) s))

/-- R112 (c), spec/95_test_vectors.md S5: drawing the same sprite twice gives the display back, and the second draw
collides iff the first one turned some cell on. -/
def Obligations.DrawingTwiceRestoresTheDisplay : Prop :=
  ∀ (x y : Reg) (n : Nibble) (s : State), x ≠ 15 → y ≠ 15 → InReach s.cfg s.index n.toNat →
    ∃ t u, exec (.drwVxVyN x y n) s = .next t ∧ exec (.drwVxVyN x y n) t = .next u ∧ u.disp = s.disp ∧
      (u.v[15] = 1 ↔ ∃ cx cy, cx ≤ 63 ∧ cy ≤ 31 ∧ cellOf s.disp cx cy = false ∧ cellOf t.disp cx cy = true)

/-! Keypad and timers. -/

/-- R120, R121 with R70: the skips on the level of a key; an index above 15 faults before the skip's fetch (the spec's
decision D11). -/
def Obligations.KeySkipsTestTheKeyLevel : Prop :=
  ∀ (x : Reg) (s : State),
    (∀ h : s.v[x.val].toNat < 16,
      (s.key[s.v[x.val].toNat] = true → TakenSkip s (exec (.skpVx x) s) ∧ exec (.sknpVx x) s = .next s) ∧
      (s.key[s.v[x.val].toNat] = false → exec (.skpVx x) s = .next s ∧ TakenSkip s (exec (.sknpVx x) s))) ∧
    (15 < s.v[x.val].toNat →
      exec (.skpVx x) s = .next (raise (.keyIndexFault s.v[x.val]) s) ∧
      exec (.sknpVx x) s = .next (raise (.keyIndexFault s.v[x.val]) s))

/-- R122: with no key down the fetch is undone and nothing else happens; otherwise the lowest key down is stored. -/
def Obligations.KeyWaitStoresTheLowestKeyDown : Prop :=
  ∀ (x : Reg) (s : State),
    ((∀ k : Fin 16, s.key[k.val] = false) → ∃ t, exec (.ldVxK x) s = .next t ∧
      (t.pc : Int) = ((s.pc : Int) - 2) % (2 ^ s.cfg.pcBits : Nat) ∧ Unchanged { pc := True } s t) ∧
    (∀ k : Fin 16, s.key[k.val] = true → (∀ j : Fin 16, j < k → s.key[j.val] = false) →
      ∃ t, exec (.ldVxK x) s = .next t ∧ t.v[x.val].toNat = k.val ∧ Unchanged { regs := fun r => r = x } s t)

/-- R122, spec/95_test_vectors.md S8: a tick that waits leaves everything but the timers exactly as it was; the
tick's inputs are noted in the model's own fields (notes/assumptions/4.md). That `pc` fits its width is part of the invariant
`Legal`. -/
def Obligations.KeyWaitTickChangesOnlyTheTimers : Prop :=
  ∀ (x : Reg) (s : State) (dt : Nat) (rnd : Byte), s.halted = false → s.pc < 2 ^ s.cfg.pcBits →
    InReach s.cfg s.pc 2 → decode (fetchedWord s) = .ok (.ldVxK x) → (∀ k : Fin 16, s.key[k.val] = false) →
    tick dt rnd s = .next (beginTick dt rnd s)

/-- R123: `DT.val`; in a whole tick that is the value after this tick's update. -/
def Obligations.DelayReadGivesTheUpdatedValue : Prop :=
  ∀ (x : Reg) (s : State),
    (∃ t, exec (.ldVxDt x) s = .next t ∧ t.v[x.val] = s.dt.val ∧ Unchanged { regs := fun r => r = x } s t) ∧
    ∀ dt rnd, s.halted = false → InReach s.cfg s.pc 2 → decode (fetchedWord s) = .ok (.ldVxDt x) →
      ∃ t, tick dt rnd s = .next t ∧ t.v[x.val] = (timerUpdate s.cfg.timerPeriod s.dt dt).val

/-- R124, R125, R142: a set writes the value of one timer and clears its accumulator (the spec's decision D12). -/
def Obligations.TimerSetClearsTheAccumulator : Prop :=
  ∀ (x : Reg) (s : State),
    (∃ t, exec (.ldDtVx x) s = .next t ∧ t.dt.val = s.v[x.val] ∧ t.dt.acc = 0 ∧ Unchanged { dt := True } s t) ∧
    (∃ t, exec (.ldStVx x) s = .next t ∧ t.st.val = s.v[x.val] ∧ t.st.acc = 0 ∧ Unchanged { st := True } s t)

/-! Rules about every instruction. -/

/-- R31 for memory, R14 for `I`, R15 for the stack, R18 for the display, R19 for the keys, R20 for the timers: which
instructions write them. The last three of the fields that none writes are the model's own (notes/assumptions/1.md and
4.md). -/
def Obligations.EachPieceOfStateHasItsWriters : Prop :=
  ∀ (i : Instr) (s t : State), exec i s = .next t →
    ((∃ a, t.byteAt a ≠ s.byteAt a) → (∃ x, i = .ldBVx x) ∨ ∃ x, i = .ldMemVx x) ∧
    (t.index ≠ s.index → (∃ nnn, i = .ldINnn nnn) ∨ (∃ x, i = .addIVx x) ∨ ∃ x, i = .ldFVx x) ∧
    (t.stack ≠ s.stack ∨ t.sp ≠ s.sp → i = .ret ∨ ∃ nnn, i = .callNnn nnn) ∧
    (t.disp ≠ s.disp → i = .cls ∨ ∃ x y n, i = .drwVxVyN x y n) ∧
    (t.dt ≠ s.dt → ∃ x, i = .ldDtVx x) ∧ (t.st ≠ s.st → ∃ x, i = .ldStVx x) ∧
    t.key = s.key ∧ t.cfg = s.cfg ∧ t.rnd = s.rnd ∧ t.ticks = s.ticks

/-- R13: besides the fetch, only jumps, calls, returns, taken skips and the key wait change `pc`,
additions modulo `2^PC_BITS` (the spec's decision D5). -/
def Obligations.OnlyControlInstructionsChangePc : Prop :=
  ∀ (i : Instr) (s t : State), exec i s = .next t → t.pc ≠ s.pc →
    i = .ret ∨ (∃ nnn, i = .jpNnn nnn) ∨ (∃ nnn, i = .callNnn nnn) ∨
    (t.pc = (s.pc + 2) % 2 ^ s.cfg.pcBits ∧ ((∃ x nn, i = .seVxNn x nn) ∨ (∃ x nn, i = .sneVxNn x nn) ∨ (∃ x y, i = .seVxVy x y) ∨
      (∃ x y, i = .sneVxVy x y) ∨ (∃ x, i = .skpVx x) ∨ ∃ x, i = .sknpVx x)) ∨
    ((t.pc : Int) = ((s.pc : Int) - 2) % (2 ^ s.cfg.pcBits : Nat) ∧ ∃ x, i = .ldVxK x)

/-- R11: an instruction that changes `VF` names it as its destination, or is one of the five flag-producing ALU
instructions or the draw. -/
def Obligations.OnlySixInstructionsWriteTheFlagUnasked : Prop :=
  ∀ (i : Instr) (s t : State), exec i s = .next t → t.v[15] ≠ s.v[15] →
    (∃ nn, i = .ldVxNn 15 nn) ∨ (∃ nn, i = .addVxNn 15 nn) ∨ (∃ y, i = .ldVxVy 15 y) ∨ (∃ y, i = .orVxVy 15 y) ∨
    (∃ y, i = .andVxVy 15 y) ∨ (∃ y, i = .xorVxVy 15 y) ∨ (∃ nn, i = .rndVxNn 15 nn) ∨ i = .ldVxDt 15 ∨
    i = .ldVxK 15 ∨ i = .ldVxMem 15 ∨
    (∃ x y, i = .addVxVy x y ∨ i = .subVxVy x y ∨ i = .shrVx x y ∨ i = .subnVxVy x y ∨ i = .shlVx x y) ∨
    ∃ x y n, i = .drwVxVyN x y n

/-- R143: "No instruction reads `ST.val`, and nothing reads `acc`": what an instruction does to the rest of the state is
the same whatever the sound timer and the delay timer's accumulator hold. -/
def Obligations.NoInstructionReadsTheHiddenTimers : Prop :=
  ∀ (i : Instr) (s t : State) (T : Timer) (a : Nat), exec i s = .next t →
    ((∀ x, i ≠ .ldStVx x) → exec i { s with st := T } = .next { t with st := T }) ∧
    ((∀ x, i ≠ .ldDtVx x) →
      exec i { s with dt := { s.dt with acc := a } } = .next { t with dt := { t.dt with acc := a } })

/-- R18: "no instruction reads a cell except `Dxyn`'s read-modify-write"; R19: only `Ex9E`, `ExA1` and `Fx0A` read the
keys. -/
def Obligations.DisplayAndKeysHaveTheirReaders : Prop :=
  ∀ (i : Instr) (s t : State) (g : Grid) (ks : Vector Bool 16), exec i s = .next t →
    (i ≠ .cls → (∀ x y n, i ≠ .drwVxVyN x y n) → exec i { s with disp := g } = .next { t with disp := g }) ∧
    ((∀ x, i ≠ .skpVx x) → (∀ x, i ≠ .sknpVx x) → (∀ x, i ≠ .ldVxK x) →
      exec i { s with key := ks } = .next { t with key := ks })

/-! The invariant, reset and the host interface. -/

/-- Every step keeps the invariant `Legal`: the memory's canonical form, the stack bounds, the widths of `pc`, `I` and
the stack entries in use (R12, R14, R15), `pc` and those entries at most 4096 under the fault policy (R13), drained timers
(R141), a fault record exactly when halted (R21), a legal configuration (R6). -/
def Obligations.StepKeepsTheInvariant : Prop :=
  ∀ s t : State, Legal s → step s = .next t → Legal t

/-- Every host operation keeps the invariant, for all inputs of a tick, all images and all key settings. -/
def Obligations.HostOperationsKeepTheInvariant : Prop :=
  ∀ (m : Move) (s t : State), Legal s → Machine.move m s = .next t → Legal t

/-- The invariant holds at reset, under every configuration R6 allows and under the default one. -/
def Obligations.ResetSatisfiesTheInvariant : Prop :=
  Legal State.reset ∧ ∀ c : Config, c.Ok → Legal (State.resetWith c)

/-- R24, R150: what reset leaves, under every configuration R6 allows, and that the host's `Reset` leaves just that,
whatever the state was, the model's own fields kept (the model's choice, notes/assumptions/1.md and 4.md). The source gives
the font, the entry point and the empty stack; the zeros are the spec's decision D16. The dead stack entries, which the
last clause takes in, hold what the model's reset gives them (the model's choice, notes/assumptions/8.md). -/
def Obligations.ResetLeavesTheListedValues : Prop :=
  (∀ c : Config, c.Ok →
    (State.resetWith c).pc = c.progStart ∧ (State.resetWith c).sp = 0 ∧
    (∀ k, (h : k < c.fontData.length) → (State.resetWith c).byteAt (c.fontBase + k) = c.fontData[k]) ∧
    (∀ a, a < c.fontBase ∨ c.fontBase + 80 ≤ a → (State.resetWith c).byteAt a = 0) ∧
    (∀ r : Reg, (State.resetWith c).v[r.val] = 0) ∧ (State.resetWith c).index = 0 ∧
    (∀ cx cy, cellOf (State.resetWith c).disp cx cy = false) ∧ (∀ k : Fin 16, (State.resetWith c).key[k.val] = false) ∧
    (State.resetWith c).dt = ⟨0, 0⟩ ∧ (State.resetWith c).st = ⟨0, 0⟩ ∧
    (State.resetWith c).halted = false ∧ (State.resetWith c).fault = none) ∧
  ∀ s : State, Machine.move .reset s = .next { State.resetWith s.cfg with rnd := s.rnd, ticks := s.ticks }

/-- R146: an image that fits is copied to `PROG_START` over the reset state; a longer one is refused (the spec's
decision D17). The `Reset` inside it keeps the model's own fields, and the dead stack entries are those of the
model's reset (the model's choices, notes/assumptions/1.md, 4.md and 8.md). -/
def Obligations.LoadPlacesTheImage : Prop :=
  ∀ (image : List Byte) (s : State), s.cfg.Ok →
    (image.length ≤ 4096 - s.cfg.progStart → ∃ t, Machine.move (.load image) s = .next t ∧
      (∀ k, (h : k < image.length) → t.byteAt (s.cfg.progStart + k) = image[k]) ∧
      (∀ a, a < s.cfg.progStart ∨ s.cfg.progStart + image.length ≤ a →
        t.byteAt a = (State.resetWith s.cfg).byteAt a) ∧
      Memory.wf t.cfg t.mem = true ∧
      t = { State.resetWith s.cfg with mem := t.mem, rnd := s.rnd, ticks := s.ticks }) ∧
    (4096 - s.cfg.progStart < image.length →
      Machine.move (.load image) s = .refused (.imageTooLong image.length))

/-- R149: one entry of the key vector is set and nothing else changes; an index above 15 has no move (the spec's
decision D24). -/
def Obligations.KeySetSetsOneKey : Prop :=
  ∀ (k : Nat) (pressed : Bool) (s : State),
    (k < 16 → ∃ t, Machine.move (.keySet k pressed) s = .next t ∧ t = { s with key := t.key } ∧
      ∀ j : Fin 16, t.key[j.val] = if j.val = k then pressed else s.key[j.val]) ∧
    (16 ≤ k → Machine.move (.keySet k pressed) s = .refused (.keyIndexOutOfRange k))

/-- R148: the 2048 entries of the buffer, row-major; the core's state is unchanged. -/
def Obligations.RenderFillsTheBufferRowMajor : Prop :=
  ∀ s : State, (render s).length = 2048 ∧
    (∀ cx cy, cx < 64 → cy < 32 →
      (render s)[cy * 64 + cx]? = some (if cellOf s.disp cx cy then s.cfg.colorOn else s.cfg.colorOff)) ∧
    Machine.move .render s = .next s
end

