-- ==== Sys2Proof/Laws/State.lean ====
section
/-!
SUPPORT. One lemma per field per update of `State`, each true by `rfl`, so that no later proof unfolds a record update.
-/

namespace Sys2Proof.Machine

/-! `State.setV` -/

@[simp] theorem State.setV_v (s : State) (x : Reg) (b : Byte) : (s.setV x b).v = s.v.set x.val b x.isLt := rfl
@[simp] theorem State.setV_pc (s : State) (x : Reg) (b : Byte) : (s.setV x b).pc = s.pc := rfl
@[simp] theorem State.setV_index (s : State) (x : Reg) (b : Byte) : (s.setV x b).index = s.index := rfl
@[simp] theorem State.setV_stack (s : State) (x : Reg) (b : Byte) : (s.setV x b).stack = s.stack := rfl
@[simp] theorem State.setV_sp (s : State) (x : Reg) (b : Byte) : (s.setV x b).sp = s.sp := rfl
@[simp] theorem State.setV_mem (s : State) (x : Reg) (b : Byte) : (s.setV x b).mem = s.mem := rfl
@[simp] theorem State.setV_disp (s : State) (x : Reg) (b : Byte) : (s.setV x b).disp = s.disp := rfl
@[simp] theorem State.setV_key (s : State) (x : Reg) (b : Byte) : (s.setV x b).key = s.key := rfl
@[simp] theorem State.setV_dt (s : State) (x : Reg) (b : Byte) : (s.setV x b).dt = s.dt := rfl
@[simp] theorem State.setV_st (s : State) (x : Reg) (b : Byte) : (s.setV x b).st = s.st := rfl
@[simp] theorem State.setV_halted (s : State) (x : Reg) (b : Byte) : (s.setV x b).halted = s.halted := rfl
@[simp] theorem State.setV_fault (s : State) (x : Reg) (b : Byte) : (s.setV x b).fault = s.fault := rfl
@[simp] theorem State.setV_cfg (s : State) (x : Reg) (b : Byte) : (s.setV x b).cfg = s.cfg := rfl
@[simp] theorem State.setV_rnd (s : State) (x : Reg) (b : Byte) : (s.setV x b).rnd = s.rnd := rfl
@[simp] theorem State.setV_ticks (s : State) (x : Reg) (b : Byte) : (s.setV x b).ticks = s.ticks := rfl
@[simp] theorem State.setV_byteAt (s : State) (x : Reg) (b : Byte) (k : Nat) : (s.setV x b).byteAt k = s.byteAt k := rfl

/-! `State.setPc` -/

@[simp] theorem State.setPc_v (s : State) (a : Nat) : (s.setPc a).v = s.v := rfl
@[simp] theorem State.setPc_pc (s : State) (a : Nat) : (s.setPc a).pc = a := rfl
@[simp] theorem State.setPc_index (s : State) (a : Nat) : (s.setPc a).index = s.index := rfl
@[simp] theorem State.setPc_stack (s : State) (a : Nat) : (s.setPc a).stack = s.stack := rfl
@[simp] theorem State.setPc_sp (s : State) (a : Nat) : (s.setPc a).sp = s.sp := rfl
@[simp] theorem State.setPc_mem (s : State) (a : Nat) : (s.setPc a).mem = s.mem := rfl
@[simp] theorem State.setPc_disp (s : State) (a : Nat) : (s.setPc a).disp = s.disp := rfl
@[simp] theorem State.setPc_key (s : State) (a : Nat) : (s.setPc a).key = s.key := rfl
@[simp] theorem State.setPc_dt (s : State) (a : Nat) : (s.setPc a).dt = s.dt := rfl
@[simp] theorem State.setPc_st (s : State) (a : Nat) : (s.setPc a).st = s.st := rfl
@[simp] theorem State.setPc_halted (s : State) (a : Nat) : (s.setPc a).halted = s.halted := rfl
@[simp] theorem State.setPc_fault (s : State) (a : Nat) : (s.setPc a).fault = s.fault := rfl
@[simp] theorem State.setPc_cfg (s : State) (a : Nat) : (s.setPc a).cfg = s.cfg := rfl
@[simp] theorem State.setPc_rnd (s : State) (a : Nat) : (s.setPc a).rnd = s.rnd := rfl
@[simp] theorem State.setPc_ticks (s : State) (a : Nat) : (s.setPc a).ticks = s.ticks := rfl
@[simp] theorem State.setPc_byteAt (s : State) (a : Nat) (k : Nat) : (s.setPc a).byteAt k = s.byteAt k := rfl

/-! `State.setIndex` -/

@[simp] theorem State.setIndex_v (s : State) (a : Nat) : (s.setIndex a).v = s.v := rfl
@[simp] theorem State.setIndex_pc (s : State) (a : Nat) : (s.setIndex a).pc = s.pc := rfl
@[simp] theorem State.setIndex_index (s : State) (a : Nat) : (s.setIndex a).index = a := rfl
@[simp] theorem State.setIndex_stack (s : State) (a : Nat) : (s.setIndex a).stack = s.stack := rfl
@[simp] theorem State.setIndex_sp (s : State) (a : Nat) : (s.setIndex a).sp = s.sp := rfl
@[simp] theorem State.setIndex_mem (s : State) (a : Nat) : (s.setIndex a).mem = s.mem := rfl
@[simp] theorem State.setIndex_disp (s : State) (a : Nat) : (s.setIndex a).disp = s.disp := rfl
@[simp] theorem State.setIndex_key (s : State) (a : Nat) : (s.setIndex a).key = s.key := rfl
@[simp] theorem State.setIndex_dt (s : State) (a : Nat) : (s.setIndex a).dt = s.dt := rfl
@[simp] theorem State.setIndex_st (s : State) (a : Nat) : (s.setIndex a).st = s.st := rfl
@[simp] theorem State.setIndex_halted (s : State) (a : Nat) : (s.setIndex a).halted = s.halted := rfl
@[simp] theorem State.setIndex_fault (s : State) (a : Nat) : (s.setIndex a).fault = s.fault := rfl
@[simp] theorem State.setIndex_cfg (s : State) (a : Nat) : (s.setIndex a).cfg = s.cfg := rfl
@[simp] theorem State.setIndex_rnd (s : State) (a : Nat) : (s.setIndex a).rnd = s.rnd := rfl
@[simp] theorem State.setIndex_ticks (s : State) (a : Nat) : (s.setIndex a).ticks = s.ticks := rfl
@[simp] theorem State.setIndex_byteAt (s : State) (a : Nat) (k : Nat) : (s.setIndex a).byteAt k = s.byteAt k := rfl

/-! `raise` -/

@[simp] theorem raise_v (f : Fault) (s : State) : (raise f s).v = s.v := rfl
@[simp] theorem raise_pc (f : Fault) (s : State) : (raise f s).pc = s.pc := rfl
@[simp] theorem raise_index (f : Fault) (s : State) : (raise f s).index = s.index := rfl
@[simp] theorem raise_stack (f : Fault) (s : State) : (raise f s).stack = s.stack := rfl
@[simp] theorem raise_sp (f : Fault) (s : State) : (raise f s).sp = s.sp := rfl
@[simp] theorem raise_mem (f : Fault) (s : State) : (raise f s).mem = s.mem := rfl
@[simp] theorem raise_disp (f : Fault) (s : State) : (raise f s).disp = s.disp := rfl
@[simp] theorem raise_key (f : Fault) (s : State) : (raise f s).key = s.key := rfl
@[simp] theorem raise_dt (f : Fault) (s : State) : (raise f s).dt = s.dt := rfl
@[simp] theorem raise_st (f : Fault) (s : State) : (raise f s).st = s.st := rfl
@[simp] theorem raise_halted (f : Fault) (s : State) : (raise f s).halted = true := rfl
@[simp] theorem raise_fault (f : Fault) (s : State) : (raise f s).fault = some f := rfl
@[simp] theorem raise_cfg (f : Fault) (s : State) : (raise f s).cfg = s.cfg := rfl
@[simp] theorem raise_rnd (f : Fault) (s : State) : (raise f s).rnd = s.rnd := rfl
@[simp] theorem raise_ticks (f : Fault) (s : State) : (raise f s).ticks = s.ticks := rfl
@[simp] theorem raise_byteAt (f : Fault) (s : State) (k : Nat) : (raise f s).byteAt k = s.byteAt k := rfl

/-! `beginTick` -/

@[simp] theorem beginTick_v (d : Nat) (b : Byte) (s : State) : (beginTick d b s).v = s.v := rfl
@[simp] theorem beginTick_pc (d : Nat) (b : Byte) (s : State) : (beginTick d b s).pc = s.pc := rfl
@[simp] theorem beginTick_index (d : Nat) (b : Byte) (s : State) : (beginTick d b s).index = s.index := rfl
@[simp] theorem beginTick_stack (d : Nat) (b : Byte) (s : State) : (beginTick d b s).stack = s.stack := rfl
@[simp] theorem beginTick_sp (d : Nat) (b : Byte) (s : State) : (beginTick d b s).sp = s.sp := rfl
@[simp] theorem beginTick_mem (d : Nat) (b : Byte) (s : State) : (beginTick d b s).mem = s.mem := rfl
@[simp] theorem beginTick_disp (d : Nat) (b : Byte) (s : State) : (beginTick d b s).disp = s.disp := rfl
@[simp] theorem beginTick_key (d : Nat) (b : Byte) (s : State) : (beginTick d b s).key = s.key := rfl
@[simp] theorem beginTick_dt (d : Nat) (b : Byte) (s : State) : (beginTick d b s).dt = timerUpdate s.cfg.timerPeriod s.dt d := rfl
@[simp] theorem beginTick_st (d : Nat) (b : Byte) (s : State) : (beginTick d b s).st = timerUpdate s.cfg.timerPeriod s.st d := rfl
@[simp] theorem beginTick_halted (d : Nat) (b : Byte) (s : State) : (beginTick d b s).halted = s.halted := rfl
@[simp] theorem beginTick_fault (d : Nat) (b : Byte) (s : State) : (beginTick d b s).fault = s.fault := rfl
@[simp] theorem beginTick_cfg (d : Nat) (b : Byte) (s : State) : (beginTick d b s).cfg = s.cfg := rfl
@[simp] theorem beginTick_rnd (d : Nat) (b : Byte) (s : State) : (beginTick d b s).rnd = b := rfl
@[simp] theorem beginTick_ticks (d : Nat) (b : Byte) (s : State) : (beginTick d b s).ticks = s.ticks + 1 := rfl
@[simp] theorem beginTick_byteAt (d : Nat) (b : Byte) (s : State) (k : Nat) : (beginTick d b s).byteAt k = s.byteAt k := rfl

/-! `writeWithFlag` -/

@[simp] theorem writeWithFlag_v (s : State) (x : Reg) (r g : Byte) : (writeWithFlag s x r g).v = (s.v.set x.val r x.isLt).set 15 g (by decide) := rfl
@[simp] theorem writeWithFlag_pc (s : State) (x : Reg) (r g : Byte) : (writeWithFlag s x r g).pc = s.pc := rfl
@[simp] theorem writeWithFlag_index (s : State) (x : Reg) (r g : Byte) : (writeWithFlag s x r g).index = s.index := rfl
@[simp] theorem writeWithFlag_stack (s : State) (x : Reg) (r g : Byte) : (writeWithFlag s x r g).stack = s.stack := rfl
@[simp] theorem writeWithFlag_sp (s : State) (x : Reg) (r g : Byte) : (writeWithFlag s x r g).sp = s.sp := rfl
@[simp] theorem writeWithFlag_mem (s : State) (x : Reg) (r g : Byte) : (writeWithFlag s x r g).mem = s.mem := rfl
@[simp] theorem writeWithFlag_disp (s : State) (x : Reg) (r g : Byte) : (writeWithFlag s x r g).disp = s.disp := rfl
@[simp] theorem writeWithFlag_key (s : State) (x : Reg) (r g : Byte) : (writeWithFlag s x r g).key = s.key := rfl
@[simp] theorem writeWithFlag_dt (s : State) (x : Reg) (r g : Byte) : (writeWithFlag s x r g).dt = s.dt := rfl
@[simp] theorem writeWithFlag_st (s : State) (x : Reg) (r g : Byte) : (writeWithFlag s x r g).st = s.st := rfl
@[simp] theorem writeWithFlag_halted (s : State) (x : Reg) (r g : Byte) : (writeWithFlag s x r g).halted = s.halted := rfl
@[simp] theorem writeWithFlag_fault (s : State) (x : Reg) (r g : Byte) : (writeWithFlag s x r g).fault = s.fault := rfl
@[simp] theorem writeWithFlag_cfg (s : State) (x : Reg) (r g : Byte) : (writeWithFlag s x r g).cfg = s.cfg := rfl
@[simp] theorem writeWithFlag_rnd (s : State) (x : Reg) (r g : Byte) : (writeWithFlag s x r g).rnd = s.rnd := rfl
@[simp] theorem writeWithFlag_ticks (s : State) (x : Reg) (r g : Byte) : (writeWithFlag s x r g).ticks = s.ticks := rfl
@[simp] theorem writeWithFlag_byteAt (s : State) (x : Reg) (r g : Byte) (k : Nat) : (writeWithFlag s x r g).byteAt k = s.byteAt k := rfl

/-! `State.resetWith` and `hostReset` -/

@[simp] theorem State.resetWith_cfg (c : Config) : (State.resetWith c).cfg = c := rfl
@[simp] theorem State.resetWith_v (c : Config) : (State.resetWith c).v = Vector.replicate 16 0 := rfl
@[simp] theorem hostReset_v (s : State) : (hostReset s).v = (State.resetWith s.cfg).v := rfl
@[simp] theorem State.resetWith_pc (c : Config) : (State.resetWith c).pc = c.progStart := rfl
@[simp] theorem hostReset_pc (s : State) : (hostReset s).pc = (State.resetWith s.cfg).pc := rfl
@[simp] theorem State.resetWith_index (c : Config) : (State.resetWith c).index = 0 := rfl
@[simp] theorem hostReset_index (s : State) : (hostReset s).index = (State.resetWith s.cfg).index := rfl
@[simp] theorem State.resetWith_stack (c : Config) : (State.resetWith c).stack = List.replicate c.stackDepth 0 := rfl
@[simp] theorem hostReset_stack (s : State) : (hostReset s).stack = (State.resetWith s.cfg).stack := rfl
@[simp] theorem State.resetWith_sp (c : Config) : (State.resetWith c).sp = 0 := rfl
@[simp] theorem hostReset_sp (s : State) : (hostReset s).sp = (State.resetWith s.cfg).sp := rfl
@[simp] theorem State.resetWith_mem (c : Config) : (State.resetWith c).mem = [] := rfl
@[simp] theorem hostReset_mem (s : State) : (hostReset s).mem = (State.resetWith s.cfg).mem := rfl
@[simp] theorem State.resetWith_disp (c : Config) : (State.resetWith c).disp = Vector.replicate 64 (Vector.replicate 32 false) := rfl
@[simp] theorem hostReset_disp (s : State) : (hostReset s).disp = (State.resetWith s.cfg).disp := rfl
@[simp] theorem State.resetWith_key (c : Config) : (State.resetWith c).key = Vector.replicate 16 false := rfl
@[simp] theorem hostReset_key (s : State) : (hostReset s).key = (State.resetWith s.cfg).key := rfl
@[simp] theorem State.resetWith_dt (c : Config) : (State.resetWith c).dt = ⟨0, 0⟩ := rfl
@[simp] theorem hostReset_dt (s : State) : (hostReset s).dt = (State.resetWith s.cfg).dt := rfl
@[simp] theorem State.resetWith_st (c : Config) : (State.resetWith c).st = ⟨0, 0⟩ := rfl
@[simp] theorem hostReset_st (s : State) : (hostReset s).st = (State.resetWith s.cfg).st := rfl
@[simp] theorem State.resetWith_halted (c : Config) : (State.resetWith c).halted = false := rfl
@[simp] theorem hostReset_halted (s : State) : (hostReset s).halted = (State.resetWith s.cfg).halted := rfl
@[simp] theorem State.resetWith_fault (c : Config) : (State.resetWith c).fault = none := rfl
@[simp] theorem hostReset_fault (s : State) : (hostReset s).fault = (State.resetWith s.cfg).fault := rfl
@[simp] theorem hostReset_cfg (s : State) : (hostReset s).cfg = s.cfg := rfl
@[simp] theorem hostReset_rnd (s : State) : (hostReset s).rnd = s.rnd := rfl
@[simp] theorem hostReset_ticks (s : State) : (hostReset s).ticks = s.ticks := rfl

/-! The arithmetic of `pc`. -/

/-- The successor address fits the width of `pc`. -/
theorem State.pcNext_lt (s : State) : s.pcNext < 2 ^ s.cfg.pcBits := Nat.mod_lt _ (Nat.two_pow_pos _)

/-- Below the top of its range `pc` does not wrap. -/
theorem State.pcNext_eq {s : State} (h : s.pc + 2 < 2 ^ s.cfg.pcBits) : s.pcNext = s.pc + 2 := Nat.mod_eq_of_lt h

/-- The address behind fits the width of `pc`. -/
theorem State.pcBack_lt (s : State) : s.pcBack < 2 ^ s.cfg.pcBits := Nat.mod_lt _ (Nat.two_pow_pos _)

/-- Going back is subtraction of 2 modulo `2^PC_BITS` (spec/44_keypad_timer.md R122). -/
theorem State.pcBack_int (s : State) : (s.pcBack : Int) = ((s.pc : Int) - 2) % (2 ^ s.cfg.pcBits : Nat) := by
  unfold State.pcBack
  generalize hm : 2 ^ s.cfg.pcBits = m
  have hpos : 0 < m := hm ▸ Nat.two_pow_pos _
  by_cases h1 : m = 1
  · subst h1
    simp only [Nat.mod_one, Nat.cast_one, Int.emod_one, Nat.cast_zero]
  · rw [Int.natCast_mod, show ((s.pc + m - 2 : Nat) : Int) = (s.pc : Int) - 2 + m by omega, Int.add_emod_right]

/-- Going back after a fetch gives the address fetched from (spec/10_state.md R12). -/
theorem State.pcBack_setPc_pcNext {s : State} (h : s.pc < 2 ^ s.cfg.pcBits) : (s.setPc s.pcNext).pcBack = s.pc := by
  have h1 := State.pcBack_int (s.setPc s.pcNext)
  simp only [State.setPc_cfg, State.setPc_pc, State.pcNext, Int.natCast_mod] at h1
  rw [Int.emod_sub_emod, show ((s.pc + 2 : Nat) : Int) - 2 = s.pc by omega,
    Int.emod_eq_of_lt (by omega) (by exact_mod_cast h)] at h1
  exact_mod_cast h1

/-! Registers. -/

/-- Reading a register after writing one (spec/10_state.md R10: registers do not alias). -/
theorem State.setV_v_get (s : State) (x r : Reg) (b : Byte) :
    (s.setV x b).v[r.val] = if r = x then b else s.v[r.val] := by
  simp only [State.setV_v, Vector.getElem_set, Fin.val_inj, eq_comm]

/-- The registers after a result and a flag are written: the flag wins in `VF` (spec/41_load_alu.md R92). -/
theorem writeWithFlag_v_get (s : State) (x r : Reg) (b g : Byte) :
    (writeWithFlag s x b g).v[r.val] = if r = Reg.vf then g else if r = x then b else s.v[r.val] := by
  rw [writeWithFlag, State.setV_v_get, State.setV_v_get]

/-- Loading registers changes the registers only. -/
theorem State.setVs_frame : ∀ (bs : List Byte) (n : Nat) (s : State), s.setVs n bs = { s with v := (s.setVs n bs).v }
  | [], _, _ => rfl
  | b :: bs, n, s => by
    unfold State.setVs
    split
    · next h => rw [State.setVs_frame bs (n + 1) (s.setV ⟨n, h⟩ b)]; rfl
    · rfl

/-- The registers after loading a list of bytes from register `n` on (spec/42_index_memory.md R105). -/
theorem State.setVs_v_get :
    ∀ (bs : List Byte) (n : Nat) (s : State) (r : Reg), n + bs.length ≤ 16 →
      (s.setVs n bs).v[r.val] = if h : n ≤ r.val ∧ r.val < n + bs.length then bs[r.val - n] else s.v[r.val]
  | [], n, s, r, _ => by
    rw [dif_neg (by simp only [List.length_nil]; omega)]
    rfl
  | b :: bs, n, s, r, hl => by
    simp only [List.length_cons] at hl
    have hs : s.setVs n (b :: bs) = (s.setV ⟨n, by omega⟩ b).setVs (n + 1) bs := dif_pos (by omega)
    simp only [hs, State.setVs_v_get bs (n + 1) (s.setV ⟨n, by omega⟩ b) r (by omega)]
    by_cases hr : r.val = n
    · have hEq : r = ⟨n, by omega⟩ := Fin.ext hr
      rw [dif_neg (by omega), dif_pos (by simp only [List.length_cons]; omega), State.setV_v_get, if_pos hEq]
      simp [hr]
    · have hne : r ≠ ⟨n, by omega⟩ := fun h => hr (congrArg Fin.val h)
      by_cases h : n + 1 ≤ r.val ∧ r.val < n + 1 + bs.length
      · rw [dif_pos h, dif_pos (by simp only [List.length_cons]; omega)]
        simp only [show r.val - n = r.val - (n + 1) + 1 by omega, List.getElem_cons_succ]
      · rw [dif_neg h, dif_neg (by simp only [List.length_cons]; omega), State.setV_v_get, if_neg hne]

end Sys2Proof.Machine
end

