-- ==== Sys2Proof/Laws/Memory.lean ====
section
/-!
SUPPORT. Memory: a read after a write gives the byte written, every other address reads as before
(spec/20_memory.md R32), and every operation keeps the canonical form.
-/

namespace Sys2Proof.Machine

/-- The canonical form, unfolded for a listed byte. -/
theorem Memory.wf_cons {c : Config} {a : Nat} {b : Byte} {m : Memory} :
    Memory.wf c ((a, b) :: m) = true ↔
      a < 4096 ∧ b ≠ initByte c a ∧ (∀ e ∈ m, a < e.1) ∧ Memory.wf c m = true := by
  simp [Memory.wf, and_assoc]

/-- An address below every listed one reads as its reset byte. -/
theorem Memory.read_of_forall_lt {c : Config} {a : Nat} :
    ∀ {m : Memory}, (∀ e ∈ m, a < e.1) → Memory.read c m a = initByte c a
  | [], _ => rfl
  | (k, b) :: m, h => by
    have hk : a < k := h (k, b) (by simp)
    rw [Memory.read, if_neg (by omega), Memory.read_of_forall_lt fun e he => h e (by simp [he])]

/-- Reading through an entry that may have been left out of the list. -/
theorem Memory.read_cons {c : Config} {a : Nat} {b : Byte} {m : Memory} (h : ∀ e ∈ m, a < e.1) (k : Nat) :
    Memory.read c (Memory.cons c a b m) k = if k = a then b else Memory.read c m k := by
  unfold Memory.cons
  by_cases hb : b = initByte c a
  · rw [if_pos hb]
    by_cases hk : k = a
    · rw [if_pos hk, hk, Memory.read_of_forall_lt h, hb]
    · rw [if_neg hk]
  · rw [if_neg hb, Memory.read]
    by_cases hk : k = a
    · rw [if_pos hk, if_pos hk.symm]
    · rw [if_neg hk, if_neg fun e => hk e.symm]

/-- An entry that may be left out keeps the canonical form. -/
theorem Memory.wf_of_cons {c : Config} {a : Nat} {b : Byte} {m : Memory} (ha : a < 4096)
    (h : ∀ e ∈ m, a < e.1) (hm : Memory.wf c m = true) : Memory.wf c (Memory.cons c a b m) = true := by
  unfold Memory.cons
  by_cases hb : b = initByte c a
  · rwa [if_pos hb]
  · rw [if_neg hb]
    exact Memory.wf_cons.2 ⟨ha, hb, h, hm⟩

/-- Every entry of a written memory is an old one or the written address. -/
theorem Memory.mem_write {c : Config} {a : Nat} {b : Byte} :
    ∀ {m : Memory} {e : Host.Cell}, e ∈ Memory.write c m a b → e.1 = a ∨ e ∈ m
  | [], e, he => by
    unfold Memory.write Memory.cons at he
    split at he <;> simp_all
  | (k, b') :: m, e, he => by
    unfold Memory.write at he
    split at he
    · unfold Memory.cons at he
      split at he
      · exact .inr he
      · rcases List.mem_cons.1 he with rfl | he
        · exact .inl rfl
        · exact .inr he
    · split at he
      · unfold Memory.cons at he
        split at he
        · exact .inr (List.mem_cons_of_mem _ he)
        · rcases List.mem_cons.1 he with rfl | he
          · exact .inl rfl
          · exact .inr (List.mem_cons_of_mem _ he)
      · rcases List.mem_cons.1 he with rfl | he
        · exact .inr (by simp)
        · exact (Memory.mem_write he).imp_right (List.mem_cons_of_mem _)

/-- A read after a write (R32). -/
theorem Memory.read_write {c : Config} {a : Nat} {b : Byte} (k : Nat) :
    ∀ {m : Memory}, Memory.wf c m = true →
      Memory.read c (Memory.write c m a b) k = if k = a then b else Memory.read c m k
  | [], _ => by
    rw [Memory.write, Memory.read_cons (by simp)]
  | (j, b') :: m, h => by
    obtain ⟨hj, hb, hlt, hm⟩ := Memory.wf_cons.1 h
    unfold Memory.write
    split
    · next hlt' =>
      refine Memory.read_cons (fun e he => ?_) k
      rcases List.mem_cons.1 he with rfl | he
      · exact hlt'
      · exact Nat.lt_trans hlt' (hlt e he)
    · split
      · next _ hEq =>
        subst hEq
        rw [Memory.read_cons hlt]
        by_cases hk : k = a
        · rw [if_pos hk, if_pos hk]
        · rw [if_neg hk, if_neg hk, Memory.read, if_neg fun e => hk e.symm]
      · next hnlt hne =>
        rw [Memory.read, Memory.read_write k hm, Memory.read]
        by_cases hk : j = k
        · rw [if_pos hk, if_pos hk, if_neg (by omega)]
        · rw [if_neg hk, if_neg hk]

/-- A write inside memory keeps the canonical form. -/
theorem Memory.wf_write {c : Config} {a : Nat} {b : Byte} (ha : a < 4096) :
    ∀ {m : Memory}, Memory.wf c m = true → Memory.wf c (Memory.write c m a b) = true
  | [], h => by
    rw [Memory.write]
    exact Memory.wf_of_cons ha (by simp) h
  | (j, b') :: m, h => by
    obtain ⟨hj, hb, hlt, hm⟩ := Memory.wf_cons.1 h
    unfold Memory.write
    split
    · next hlt' =>
      refine Memory.wf_of_cons ha (fun e he => ?_) h
      rcases List.mem_cons.1 he with rfl | he
      · exact hlt'
      · exact Nat.lt_trans hlt' (hlt e he)
    · split
      · next _ hEq =>
        subst hEq
        exact Memory.wf_of_cons ha hlt hm
      · next hnlt hne =>
        refine Memory.wf_cons.2 ⟨hj, hb, fun e he => ?_, Memory.wf_write ha hm⟩
        rcases Memory.mem_write he with h1 | h1
        · omega
        · exact hlt e h1

/-- Memory after reset is in canonical form. -/
@[simp] theorem Memory.wf_reset (c : Config) : Memory.wf c (State.resetWith c).mem = true := rfl

/-- Placing an image changes memory only, and keeps its canonical form (spec/60_exceptions.md R146). -/
theorem placeImage_frame :
    ∀ (bs : List Byte) (s : State) (a : Nat), placeImage s a bs = { s with mem := (placeImage s a bs).mem }
  | [], _, _ => rfl
  | b :: bs, s, a => by
    rw [placeImage, placeImage_frame bs]

/-- Memory after an image is placed inside it: the image where it goes, everything else as before. -/
theorem placeImage_reach :
    ∀ (bs : List Byte) (s : State) (a : Nat), a + bs.length ≤ 4096 → Memory.wf s.cfg s.mem = true →
      Memory.wf s.cfg (placeImage s a bs).mem = true ∧
      (∀ j (hj : j < bs.length), (placeImage s a bs).byteAt (a + j) = bs[j]) ∧
      ∀ k, k < a ∨ a + bs.length ≤ k → (placeImage s a bs).byteAt k = s.byteAt k
  | [], s, a, _, hm => ⟨hm, fun j hj => absurd hj (by simp), fun _ _ => rfl⟩
  | b :: bs, s, a, hl, hm => by
    simp only [List.length_cons] at hl
    obtain ⟨h1, h2, h3⟩ := placeImage_reach bs { s with mem := Memory.write s.cfg s.mem a b } (a + 1) (by omega)
      (Memory.wf_write (by omega) hm)
    rw [placeImage]
    refine ⟨h1, fun j hj => ?_, fun k hk => ?_⟩
    · cases j with
      | zero =>
        rw [h3 (a + 0) (.inl (by omega))]
        simp only [State.byteAt, Memory.read_write _ hm, Nat.add_zero, if_true, List.getElem_cons_zero]
      | succ j =>
        rw [show a + (j + 1) = a + 1 + j by omega, h2 j (by simpa using hj), List.getElem_cons_succ]
    · simp only [List.length_cons] at hk
      rw [h3 k (by omega)]
      simp only [State.byteAt, Memory.read_write _ hm, if_neg (show k ≠ a by omega)]

end Sys2Proof.Machine
end

