-- ==== Sys2Proof/Laws/Access.lean ====
section
/-!
SUPPORT. What each shared operation can do, said once: effective addresses and byte accesses (spec/20_memory.md R31 to
R35), fetch and skip (spec/30_encoding.md R50, R51, spec/40_control.md R70), the call stack (spec/10_state.md R16), and
raising a fault (spec/60_exceptions.md R131).
-/

namespace Sys2Proof.Machine

/-! Raising a fault. -/

@[simp] theorem orRaise_ok (s t : State) : orRaise s (.ok t) = .next t := rfl

@[simp] theorem orRaise_error (s : State) (f : Fault) : orRaise s (.error f) = .next (raise f s) := rfl

/-- The end of an instruction: its result, or a fault raised in the state it began in. -/
theorem orRaise_cases {s t : State} {r : Except Fault State} (h : orRaise s r = .next t) :
    r = .ok t ∨ ∃ f, r = .error f ∧ t = raise f s := by
  cases r with
  | ok u => exact .inl (by simpa using h)
  | error f => exact .inr ⟨f, rfl, by simpa using h.symm⟩

/-! Effective addresses. -/

/-- An address inside memory, or any address under `wrap`, has an effective address. -/
theorem effAddr_reach {c : Config} {a : Nat} {k : AccessKind} (h : c.addrPolicy = .wrap ∨ a ≤ 4095) :
    effAddr c a k = .ok (a % 4096) := by
  unfold effAddr
  by_cases ha : a ≤ 4095
  · rw [if_pos ha, Nat.mod_eq_of_lt (by omega)]
  · rw [if_neg ha, h.resolve_right ha]

/-- Under `fault`, an address above 4095 faults. -/
theorem effAddr_fault {c : Config} {a : Nat} {k : AccessKind} (hc : c.addrPolicy = .fault) (ha : 4095 < a) :
    effAddr c a k = .error (.addressFault a k) := by
  unfold effAddr
  rw [if_neg (by omega), hc]

/-- Everything `effAddr` can do. -/
theorem effAddr_cases (c : Config) (a : Nat) (k : AccessKind) :
    (effAddr c a k = .ok (a % 4096) ∧ (c.addrPolicy = .wrap ∨ a ≤ 4095)) ∨
      (effAddr c a k = .error (.addressFault a k) ∧ c.addrPolicy = .fault ∧ 4095 < a) := by
  by_cases ha : a ≤ 4095
  · exact .inl ⟨effAddr_reach (.inr ha), .inr ha⟩
  · cases hc : c.addrPolicy with
    | wrap => exact .inl ⟨effAddr_reach (.inl hc), .inl rfl⟩
    | fault => exact .inr ⟨effAddr_fault hc (by omega), rfl, by omega⟩

/-! Single bytes. -/

theorem memRead_reach {s : State} {a : Nat} {k : AccessKind} (h : s.cfg.addrPolicy = .wrap ∨ a ≤ 4095) :
    memRead s a k = .ok (s.byteAt (a % 4096)) := by
  simp only [memRead, effAddr_reach h]

theorem memRead_fault {s : State} {a : Nat} {k : AccessKind} (hc : s.cfg.addrPolicy = .fault) (ha : 4095 < a) :
    memRead s a k = .error (.addressFault a k) := by
  simp only [memRead, effAddr_fault hc ha]

theorem memWrite_reach {s : State} {a : Nat} {b : Byte} (h : s.cfg.addrPolicy = .wrap ∨ a ≤ 4095) :
    memWrite s a b = .ok { s with mem := Memory.write s.cfg s.mem (a % 4096) b } := by
  simp only [memWrite, effAddr_reach h]

theorem memWrite_fault {s : State} {a : Nat} {b : Byte} (hc : s.cfg.addrPolicy = .fault) (ha : 4095 < a) :
    memWrite s a b = .error (.addressFault a .write) := by
  simp only [memWrite, effAddr_fault hc ha]

/-! Sequences of bytes. -/

/-- `n` bytes from `a` on, all of them in reach. -/
theorem readBytes_reach {s : State} :
    ∀ {n a : Nat}, (s.cfg.addrPolicy = .wrap ∨ a + n ≤ 4096) →
      readBytes s a n = .ok ((List.range n).map fun j => s.byteAt ((a + j) % 4096))
  | 0, _, _ => rfl
  | n + 1, a, h => by
    rw [readBytes, memRead_reach (h.imp_right fun h => by omega)]
    simp only [readBytes_reach (n := n) (a := a + 1) (h.imp_right fun h => by omega), List.range_succ_eq_map,
      List.map_cons, List.map_map, Nat.add_zero]
    congr 2
    apply List.map_congr_left
    intro j _
    simp only [Function.comp, Nat.succ_eq_add_one]
    congr 2
    omega

/-- The lowest address out of reach is the one reported. -/
theorem readBytes_fault {s : State} (hc : s.cfg.addrPolicy = .fault) :
    ∀ {n a : Nat}, 0 < n → 4096 < a + n → readBytes s a n = .error (.addressFault (max a 4096) .read)
  | n + 1, a, _, h => by
    by_cases ha : a ≤ 4095
    · rw [readBytes, memRead_reach (.inr ha)]
      simp only [readBytes_fault hc (n := n) (a := a + 1) (by omega) (by omega)]
      rw [show max (a + 1) 4096 = max a 4096 by omega]
    · rw [readBytes, memRead_fault hc (by omega), show max a 4096 = a by omega]

/-- Everything `readBytes` can do. -/
theorem readBytes_cases (s : State) (a n : Nat) :
    readBytes s a n = .ok ((List.range n).map fun j => s.byteAt ((a + j) % 4096)) ∨
      (readBytes s a n = .error (.addressFault (max a 4096) .read) ∧ s.cfg.addrPolicy = .fault ∧ 0 < n ∧
        4096 < a + n) := by
  cases n with
  | zero => exact .inl rfl
  | succ n =>
    by_cases h : s.cfg.addrPolicy = .wrap ∨ a + (n + 1) ≤ 4096
    · exact .inl (readBytes_reach h)
    · have hc : s.cfg.addrPolicy = .fault := by
        cases hp : s.cfg.addrPolicy with
        | wrap => exact absurd (.inl hp) h
        | fault => rfl
      have ha : 4096 < a + (n + 1) := by
        by_contra hn
        exact h (.inr (by omega))
      exact .inr ⟨readBytes_fault hc (by omega) ha, hc, by omega, ha⟩

/-- A completed sequence of stores changes memory only, and keeps its canonical form. -/
theorem writeBytes_ok :
    ∀ {bs : List Byte} {s t : State} {a : Nat}, writeBytes s a bs = .ok t →
      t = { s with mem := t.mem } ∧ (Memory.wf s.cfg s.mem = true → Memory.wf s.cfg t.mem = true)
  | [], s, t, a, h => by
    obtain rfl : s = t := by simpa [writeBytes] using h
    exact ⟨rfl, id⟩
  | b :: bs, s, t, a, h => by
    rcases effAddr_cases s.cfg a .write with ⟨he, hr⟩ | ⟨he, hc, hlt⟩
    · rw [writeBytes, memWrite_reach hr] at h
      obtain ⟨h1, h2⟩ := writeBytes_ok h
      exact ⟨by rw [h1], fun hm => h2 (Memory.wf_write (Nat.mod_lt _ (by omega)) hm)⟩
    · rw [writeBytes, memWrite_fault hc hlt] at h
      cases h

/-- Stores of bytes that are all in reach, at distinct addresses: each address holds its byte, the others are as
before. -/
theorem writeBytes_reach :
    ∀ {bs : List Byte} {s : State} {a : Nat}, (s.cfg.addrPolicy = .wrap ∨ a + bs.length ≤ 4096) →
      bs.length ≤ 4096 → Memory.wf s.cfg s.mem = true →
      ∃ t, writeBytes s a bs = .ok t ∧ (∀ j (hj : j < bs.length), t.byteAt ((a + j) % 4096) = bs[j]) ∧
        ∀ k, (∀ j < bs.length, k ≠ (a + j) % 4096) → t.byteAt k = s.byteAt k
  | [], s, a, _, _, _ => ⟨s, rfl, fun j hj => absurd hj (by simp), fun _ _ => rfl⟩
  | b :: bs, s, a, h, hl, hm => by
    simp only [List.length_cons] at h hl
    have hr : s.cfg.addrPolicy = .wrap ∨ a ≤ 4095 := h.imp_right fun h => by omega
    obtain ⟨t, ht, hb, hk⟩ := writeBytes_reach (bs := bs) (a := a + 1)
      (s := { s with mem := Memory.write s.cfg s.mem (a % 4096) b }) (h.imp_right fun h => by omega) (by omega)
      (Memory.wf_write (Nat.mod_lt _ (by omega)) hm)
    refine ⟨t, by rw [writeBytes, memWrite_reach hr]; exact ht, fun j hj => ?_, fun k hne => ?_⟩
    · cases j with
      | zero =>
        rw [Nat.add_zero, hk _ fun j hj => by omega]
        simp [State.byteAt, Memory.read_write _ hm]
      | succ j =>
        have := hb j (by simpa using hj)
        rwa [show a + 1 + j = a + (j + 1) by omega] at this
    · rw [hk k fun j hj => by have := hne (j + 1) (by simpa using hj); rwa [show a + 1 + j = a + (j + 1) by omega]]
      have h0 : k ≠ a % 4096 := hne 0 (by simp)
      simp only [State.byteAt, Memory.read_write k hm, if_neg h0]

/-- The lowest address out of reach is the one reported, and nothing is written. -/
theorem writeBytes_fault :
    ∀ {bs : List Byte} {s : State} {a : Nat}, s.cfg.addrPolicy = .fault → 0 < bs.length → 4096 < a + bs.length →
      writeBytes s a bs = .error (.addressFault (max a 4096) .write)
  | b :: bs, s, a, hc, _, h => by
    simp only [List.length_cons] at h
    by_cases ha : a ≤ 4095
    · rw [writeBytes, memWrite_reach (.inr ha)]
      refine (writeBytes_fault (bs := bs) (a := a + 1)
        (s := { s with mem := Memory.write s.cfg s.mem (a % 4096) b }) hc (by omega) (by omega)).trans ?_
      rw [show max (a + 1) 4096 = max a 4096 by omega]
    · rw [writeBytes, memWrite_fault hc (by omega), show max a 4096 = a by omega]

/-! Fetch and skip. -/

/-- A fetch whose two bytes are in reach. -/
theorem fetch_reach {s : State} (h : s.cfg.addrPolicy = .wrap ∨ s.pc ≤ 4094) :
    fetch s = .ok (wordOfBytes (s.byteAt (s.pc % 4096)) (s.byteAt ((s.pc + 1) % 4096)),
      s.setPc s.pcNext) := by
  simp only [fetch, memRead_reach (h.imp_right fun h => Nat.le_succ_of_le h),
    memRead_reach (h.imp_right fun h => Nat.succ_le_succ h)]

/-- A fetch at the top of memory reports its first address out of reach. -/
theorem fetch_fault {s : State} (hc : s.cfg.addrPolicy = .fault) (h : 4095 ≤ s.pc) :
    fetch s = .error (.addressFault (max s.pc 4096) .fetch) := by
  by_cases ha : s.pc ≤ 4095
  · simp only [fetch, memRead_reach (.inr ha), memRead_fault hc (show 4095 < s.pc + 1 by omega)]
    rw [show max s.pc 4096 = s.pc + 1 by omega]
  · simp only [fetch, memRead_fault hc (show 4095 < s.pc by omega)]
    rw [show max s.pc 4096 = s.pc by omega]

/-- Everything `fetch` can do. -/
theorem fetch_cases (s : State) :
    ((s.cfg.addrPolicy = .wrap ∨ s.pc ≤ 4094) ∧
        fetch s = .ok (wordOfBytes (s.byteAt (s.pc % 4096)) (s.byteAt ((s.pc + 1) % 4096)),
          s.setPc s.pcNext)) ∨
      (s.cfg.addrPolicy = .fault ∧ 4095 ≤ s.pc ∧
        fetch s = .error (.addressFault (max s.pc 4096) .fetch)) := by
  by_cases h : s.pc ≤ 4094
  · exact .inl ⟨.inr h, fetch_reach (.inr h)⟩
  · cases hc : s.cfg.addrPolicy with
    | wrap => exact .inl ⟨.inl rfl, fetch_reach (.inl hc)⟩
    | fault => exact .inr ⟨rfl, by omega, fetch_fault hc (by omega)⟩

/-- Everything `skip` can do. -/
theorem skip_cases (s : State) :
    ((s.cfg.addrPolicy = .wrap ∨ s.pc ≤ 4094) ∧ skip s = .ok (s.setPc s.pcNext)) ∨
      (s.cfg.addrPolicy = .fault ∧ 4095 ≤ s.pc ∧
        skip s = .error (.addressFault (max s.pc 4096) .fetch)) := by
  rcases fetch_cases s with ⟨h, he⟩ | ⟨hc, h, he⟩
  · exact .inl ⟨h, by simp only [skip, he]⟩
  · exact .inr ⟨hc, h, by simp only [skip, he]⟩

/-- Everything `skipIf` can do. -/
theorem skipIf_cases (c : Bool) (s : State) :
    (c = false ∧ skipIf c s = .ok s) ∨
      (c = true ∧ (s.cfg.addrPolicy = .wrap ∨ s.pc ≤ 4094) ∧ skipIf c s = .ok (s.setPc s.pcNext)) ∨
      (c = true ∧ s.cfg.addrPolicy = .fault ∧ 4095 ≤ s.pc ∧
        skipIf c s = .error (.addressFault (max s.pc 4096) .fetch)) := by
  cases c with
  | false => exact .inl ⟨rfl, rfl⟩
  | true =>
    rcases skip_cases s with ⟨h, he⟩ | ⟨hc, h, he⟩
    · exact .inr (.inl ⟨rfl, h, he⟩)
    · exact .inr (.inr ⟨rfl, hc, h, he⟩)

/-! The call stack. -/

/-- Everything `push` can do. -/
theorem push_cases (s : State) (a : Nat) :
    (s.sp < s.cfg.stackDepth ∧ push s a = .ok { s with stack := s.stack.set s.sp a, sp := s.sp + 1 }) ∨
      (s.cfg.stackDepth ≤ s.sp ∧ push s a = .error (.stackOverflow a)) := by
  unfold push
  by_cases h : s.sp < s.cfg.stackDepth
  · exact .inl ⟨h, if_pos h⟩
  · exact .inr ⟨by omega, if_neg h⟩

/-- Everything `pop` can do. -/
theorem pop_cases (s : State) :
    (s.sp = 0 ∧ pop s = .error .stackUnderflow) ∨
      ∃ n, s.sp = n + 1 ∧ pop s = .ok ((s.stack[n]?).getD 0, { s with sp := n }) := by
  unfold pop
  cases h : s.sp with
  | zero => exact .inl ⟨rfl, rfl⟩
  | succ n => exact .inr ⟨n, rfl, rfl⟩

/-! Keys. -/

/-- A key index of 0..15. -/
theorem keyOperand_ok {s : State} {k : Byte} (h : k.toNat < 16) : keyOperand s k = .ok s.key[k.toNat] := by
  simp only [keyOperand, dif_pos h]

/-- A key index above 15. -/
theorem keyOperand_fault {s : State} {k : Byte} (h : ¬ k.toNat < 16) : keyOperand s k = .error (.keyIndexFault k) := by
  simp only [keyOperand, dif_neg h]

end Sys2Proof.Machine
end

