-- ==== Sys2Proof/Laws/Decode.lean ====
section
/-!
SUPPORT. Words and their nibbles (spec/30_encoding.md R52, R53): what the decoder's fields read from what the encoder
lays out.
-/

namespace Sys2Proof

@[simp] theorem nibble3_wordOfNibbles (a b c d : Nibble) : nibble3 (wordOfNibbles a b c d) = a := by
  simp only [nibble3, wordOfNibbles]
  ext i hi
  simp only [BitVec.getElem_extractLsb', BitVec.getLsbD_append]
  simp [hi, show ¬ 12 + i < 4 by omega, show ¬ 12 + i - 4 < 4 by omega, show ¬ 12 + i - 4 - 4 < 4 by omega,
    show 12 + i - 4 - 4 - 4 = i by omega]

@[simp] theorem nibble2_wordOfNibbles (a b c d : Nibble) : nibble2 (wordOfNibbles a b c d) = b := by
  simp only [nibble2, wordOfNibbles]
  ext i hi
  simp only [BitVec.getElem_extractLsb', BitVec.getLsbD_append]
  simp [hi, show ¬ 8 + i < 4 by omega, show ¬ 8 + i - 4 < 4 by omega,
    show 8 + i - 4 - 4 = i by omega]

@[simp] theorem nibble1_wordOfNibbles (a b c d : Nibble) : nibble1 (wordOfNibbles a b c d) = c := by
  simp only [nibble1, wordOfNibbles]
  ext i hi
  simp only [BitVec.getElem_extractLsb', BitVec.getLsbD_append]
  simp [hi, show ¬ 4 + i < 4 by omega, show 4 + i - 4 = i by omega]

@[simp] theorem nibble0_wordOfNibbles (a b c d : Nibble) : nibble0 (wordOfNibbles a b c d) = d := by
  simp only [nibble0, wordOfNibbles]
  ext i hi
  simp only [BitVec.getElem_extractLsb', BitVec.getLsbD_append]
  simp [hi]

/-- A word is its four nibbles. -/
theorem wordOfNibbles_nibbles (w : Word) : wordOfNibbles (nibble3 w) (nibble2 w) (nibble1 w) (nibble0 w) = w := by
  simp only [nibble3, nibble2, nibble1, nibble0, wordOfNibbles]
  ext i hi
  simp only [BitVec.getElem_append, BitVec.getElem_extractLsb']
  by_cases h0 : i < 4
  · simp [h0, hi]
  · by_cases h1 : i - 4 < 4
    · simp [h0, h1, show 4 + (i - 4) = i by omega, hi]
    · by_cases h2 : i - 4 - 4 < 4
      · simp [h0, h1, h2, show 8 + (i - 4 - 4) = i by omega, hi]
      · simp [h0, h1, h2, show 12 + (i - 4 - 4 - 4) = i by omega, hi]

/-- A byte is its two nibbles. -/
@[simp] theorem byte_of_nibbles (b : Byte) : b.extractLsb' 4 4 ++ b.extractLsb' 0 4 = b := by
  ext i hi
  simp only [BitVec.getElem_append, BitVec.getElem_extractLsb']
  by_cases h0 : i < 4
  · simp [h0, hi]
  · simp [h0, show 4 + (i - 4) = i by omega, hi]

/-- A 12-bit literal is its three nibbles. -/
@[simp] theorem nnn_of_nibbles (n : BitVec 12) :
    n.extractLsb' 8 4 ++ n.extractLsb' 4 4 ++ n.extractLsb' 0 4 = n := by
  ext i hi
  simp only [BitVec.getElem_append, BitVec.getElem_extractLsb']
  by_cases h0 : i < 4
  · simp [h0, hi]
  · by_cases h1 : i - 4 < 4
    · simp [h0, h1, show 4 + (i - 4) = i by omega, hi]
    · simp [h0, h1, show 8 + (i - 4 - 4) = i by omega, hi]

@[simp] theorem regOfNibble_nibbleOfReg (r : Reg) : regOfNibble (nibbleOfReg r) = r := rfl

@[simp] theorem nibbleOfReg_regOfNibble (n : Nibble) : nibbleOfReg (regOfNibble n) = n := rfl

end Sys2Proof
end

