-- ==== Sys2Proof/Laws/Display.lean ====
section
/-!
SUPPORT. The sprite engine cell by cell (spec/43_display.md R111, R112 (b)): each cell is toggled exactly when a sprite
bit lands on it, and the collision flag is set exactly when such a cell was on.
-/

namespace Sys2Proof.Machine

/-- A cell of a grid, inside it. -/
theorem cellOf_eq {g : Grid} {cx cy : Nat} (hx : cx < 64) (hy : cy < 32) : cellOf g cx cy = (g[cx])[cy] := by
  rw [cellOf, dif_pos ⟨by omega, by omega⟩]

/-- Two grids with equal cells are equal. -/
theorem Grid.ext_cells {g h : Grid} (H : ∀ cx cy, cx ≤ 63 → cy ≤ 31 → cellOf g cx cy = cellOf h cx cy) : g = h := by
  apply Vector.ext
  intro cx hx
  apply Vector.ext
  intro cy hy
  have := H cx cy (by omega) (by omega)
  rwa [cellOf_eq hx hy, cellOf_eq hx hy] at this

/-- Toggling changes exactly the cell named, and none when it is clipped. -/
theorem cellOf_toggleCell (g : Grid) (cx cy a b : Nat) :
    cellOf (toggleCell g cx cy) a b =
      (cellOf g a b ^^ decide (a = cx ∧ b = cy ∧ cx ≤ 63 ∧ cy ≤ 31)) := by
  unfold toggleCell
  by_cases h : cx ≤ 63 ∧ cy ≤ 31
  · rw [dif_pos h]
    by_cases hab : a ≤ 63 ∧ b ≤ 31
    · simp only [cellOf, dif_pos hab, Vector.getElem_set]
      by_cases ha : cx = a
      · subst ha
        by_cases hb : cy = b
        · subst hb
          simp [h]
        · simp [hb, Ne.symm hb]
      · simp [ha, Ne.symm ha]
    · have : ¬ (a = cx ∧ b = cy ∧ cx ≤ 63 ∧ cy ≤ 31) := by omega
      simp [cellOf, dif_neg hab, this]
  · have : ¬ (a = cx ∧ b = cy ∧ cx ≤ 63 ∧ cy ≤ 31) := by omega
    simp [dif_neg h, this]

/-- Outside the grid no cell is on. -/
theorem cellOf_outside {g : Grid} {cx cy : Nat} (h : ¬ (cx ≤ 63 ∧ cy ≤ 31)) : cellOf g cx cy = false := by
  rw [cellOf, dif_neg h]

/-- The cells one sprite row at `(x0, cy)` touches through the columns of a list. -/
def rowTouches (x0 cy : Nat) (row : Byte) (cs : List Nat) (a b : Nat) : Prop :=
  b = cy ∧ a ≤ 63 ∧ b ≤ 31 ∧ ∃ c ∈ cs, a = x0 + c ∧ row.getLsbD (7 - c) = true

/-- One sprite row, cell by cell. The columns are distinct, so no cell is toggled twice. -/
theorem drawColumns_cells (x0 cy : Nat) (row : Byte) :
    ∀ (cs : List Nat), cs.Nodup → ∀ (d : Grid × Bool) (a b : Nat),
      (rowTouches x0 cy row cs a b → cellOf (drawColumns x0 cy row cs d).1 a b = !cellOf d.1 a b) ∧
        (¬ rowTouches x0 cy row cs a b → cellOf (drawColumns x0 cy row cs d).1 a b = cellOf d.1 a b)
  | [], _, d, a, b => ⟨fun ⟨_, _, _, _, hc, _⟩ => absurd hc List.not_mem_nil, fun _ => rfl⟩
  | c :: cs, hn, d, a, b => by
    obtain ⟨hc, hn⟩ := List.nodup_cons.1 hn
    have ih := drawColumns_cells x0 cy row cs hn (if row.getLsbD (7 - c) then plot d (x0 + c) cy else d) a b
    rw [drawColumns]
    by_cases hbit : row.getLsbD (7 - c) = true
    · simp only [hbit, if_true, plot] at ih ⊢
      rw [cellOf_toggleCell] at ih
      by_cases hcell : a = x0 + c ∧ b = cy ∧ x0 + c ≤ 63 ∧ cy ≤ 31
      · have hnot : ¬ rowTouches x0 cy row cs a b := by
          rintro ⟨_, _, _, c', hc', hEq, _⟩
          have : c' = c := by omega
          exact hc (this ▸ hc')
        have hyes : rowTouches x0 cy row (c :: cs) a b :=
          ⟨hcell.2.1, by omega, by omega, c, by simp, hcell.1, hbit⟩
        exact ⟨fun _ => by rw [ih.2 hnot]; simp [hcell], fun h => absurd hyes h⟩
      · have hiff : rowTouches x0 cy row (c :: cs) a b ↔ rowTouches x0 cy row cs a b := by
          constructor
          · rintro ⟨h1, h2, h3, c', hc', hEq, hb⟩
            rcases List.mem_cons.1 hc' with rfl | hc'
            · exact absurd ⟨hEq, h1, by omega, by omega⟩ hcell
            · exact ⟨h1, h2, h3, c', hc', hEq, hb⟩
          · rintro ⟨h1, h2, h3, c', hc', h⟩
            exact ⟨h1, h2, h3, c', List.mem_cons_of_mem _ hc', h⟩
        rw [hiff]
        simpa [hcell] using ih
    · have hiff : rowTouches x0 cy row (c :: cs) a b ↔ rowTouches x0 cy row cs a b := by
        constructor
        · rintro ⟨h1, h2, h3, c', hc', hEq, hb⟩
          rcases List.mem_cons.1 hc' with rfl | hc'
          · exact absurd hb hbit
          · exact ⟨h1, h2, h3, c', hc', hEq, hb⟩
        · rintro ⟨h1, h2, h3, c', hc', h⟩
          exact ⟨h1, h2, h3, c', List.mem_cons_of_mem _ hc', h⟩
      rw [hiff]
      simpa [hbit] using ih

/-- The collision of one sprite row: a touched cell was on. -/
theorem drawColumns_collision (x0 cy : Nat) (row : Byte) :
    ∀ (cs : List Nat), cs.Nodup → ∀ (d : Grid × Bool),
      ((drawColumns x0 cy row cs d).2 = true ↔
        d.2 = true ∨ ∃ a b, rowTouches x0 cy row cs a b ∧ cellOf d.1 a b = true)
  | [], _, d => by
    refine ⟨.inl, fun h => h.resolve_right ?_⟩
    rintro ⟨_, _, ⟨_, _, _, c, hc, _⟩, _⟩
    cases hc
  | c :: cs, hn, d => by
    obtain ⟨hc, hn⟩ := List.nodup_cons.1 hn
    rw [drawColumns, drawColumns_collision x0 cy row cs hn]
    by_cases hbit : row.getLsbD (7 - c) = true
    · simp only [hbit, if_true, plot, Bool.or_eq_true]
      have hout : cellOf d.1 (x0 + c) cy = true → x0 + c ≤ 63 ∧ cy ≤ 31 := fun h => by
        by_contra hn
        rw [cellOf_outside hn] at h
        cases h
      constructor
      · rintro ((h | h) | ⟨a, b, ht, h⟩)
        · exact .inl h
        · exact .inr ⟨x0 + c, cy, ⟨rfl, (hout h).1, (hout h).2, c, by simp, rfl, hbit⟩, h⟩
        · obtain ⟨h1, h2, h3, c', hc', hEq, hb⟩ := ht
          have hne : ¬ (a = x0 + c ∧ b = cy ∧ x0 + c ≤ 63 ∧ cy ≤ 31) := by
            rintro ⟨h, _⟩
            have : c' = c := by omega
            exact hc (this ▸ hc')
          rw [cellOf_toggleCell] at h
          simp only [hne, decide_false, Bool.xor_false] at h
          exact .inr ⟨a, b, ⟨h1, h2, h3, c', List.mem_cons_of_mem _ hc', hEq, hb⟩, h⟩
      · rintro (h | ⟨a, b, ⟨h1, h2, h3, c', hc', hEq, hb⟩, h⟩)
        · exact .inl (.inl h)
        · rcases List.mem_cons.1 hc' with rfl | hc'
          · subst h1 hEq
            exact .inl (.inr h)
          · have hne : ¬ (a = x0 + c ∧ b = cy ∧ x0 + c ≤ 63 ∧ cy ≤ 31) := by
              rintro ⟨h, _⟩
              have : c' = c := by omega
              exact hc (this ▸ hc')
            refine .inr ⟨a, b, ⟨h1, h2, h3, c', hc', hEq, hb⟩, ?_⟩
            rw [cellOf_toggleCell]
            simpa only [hne, decide_false, Bool.xor_false] using h
    · simp only [hbit, if_false, Bool.false_eq_true]
      refine or_congr_right (exists_congr fun a => exists_congr fun b => and_congr_left fun _ => ?_)
      constructor
      · rintro ⟨h1, h2, h3, c', hc', h⟩
        exact ⟨h1, h2, h3, c', List.mem_cons_of_mem _ hc', h⟩
      · rintro ⟨h1, h2, h3, c', hc', hEq, hb⟩
        rcases List.mem_cons.1 hc' with rfl | hc'
        · exact absurd hb hbit
        · exact ⟨h1, h2, h3, c', hc', hEq, hb⟩

/-- The cells a sprite with its origin at `(x0, cy)` touches (R111): a 1 bit, not clipped. -/
def spriteTouches (x0 cy : Nat) (rows : List Byte) (a b : Nat) : Prop :=
  a ≤ 63 ∧ b ≤ 31 ∧ ∃ r c, ∃ h : r < rows.length, c < 8 ∧ a = x0 + c ∧ b = cy + r ∧ rows[r].getLsbD (7 - c) = true

/-- The columns of a row, by membership. -/
theorem rowTouches_eight {x0 cy : Nat} {row : Byte} {a b : Nat} :
    rowTouches x0 cy row [0, 1, 2, 3, 4, 5, 6, 7] a b ↔
      b = cy ∧ a ≤ 63 ∧ b ≤ 31 ∧ ∃ c, c < 8 ∧ a = x0 + c ∧ row.getLsbD (7 - c) = true := by
  have hmem : ∀ c, c ∈ [0, 1, 2, 3, 4, 5, 6, 7] ↔ c < 8 := fun c => by
    simp only [List.mem_cons, List.not_mem_nil, or_false]
    omega
  simp only [rowTouches, hmem]

/-- A sprite's cells, first row and the rest. -/
theorem spriteTouches_cons {x0 cy : Nat} {row : Byte} {rows : List Byte} {a b : Nat} :
    spriteTouches x0 cy (row :: rows) a b ↔
      rowTouches x0 cy row [0, 1, 2, 3, 4, 5, 6, 7] a b ∨ spriteTouches x0 (cy + 1) rows a b := by
  rw [rowTouches_eight]
  constructor
  · rintro ⟨h1, h2, r, c, hr, hc, hEq, hb, hbit⟩
    cases r with
    | zero => exact .inl ⟨hb, h1, h2, c, hc, hEq, hbit⟩
    | succ r => exact .inr ⟨h1, h2, r, c, by simpa using hr, hc, hEq, by omega, by simpa using hbit⟩
  · rintro (⟨h1, h2, h3, c, hc, hEq, hbit⟩ | ⟨h1, h2, r, c, hr, hc, hEq, hb, hbit⟩)
    · exact ⟨h2, h3, 0, c, by simp, hc, hEq, h1, hbit⟩
    · exact ⟨h1, h2, r + 1, c, by simpa using hr, hc, hEq, by omega, by simpa using hbit⟩

/-- The first row and the later rows touch no common cell (R112 (b)). -/
theorem not_both_rows {x0 cy : Nat} {row : Byte} {rows : List Byte} {a b : Nat}
    (h : rowTouches x0 cy row [0, 1, 2, 3, 4, 5, 6, 7] a b) : ¬ spriteTouches x0 (cy + 1) rows a b := by
  rintro ⟨_, _, r, c, _, _, _, hb, _⟩
  have := h.1
  omega

theorem eight_nodup : [0, 1, 2, 3, 4, 5, 6, 7].Nodup := by decide

/-- A whole sprite, cell by cell (R111). -/
theorem drawRows_cells (x0 : Nat) :
    ∀ (rows : List Byte) (cy : Nat) (d : Grid × Bool) (a b : Nat),
      (spriteTouches x0 cy rows a b → cellOf (drawRows x0 cy rows d).1 a b = !cellOf d.1 a b) ∧
        (¬ spriteTouches x0 cy rows a b → cellOf (drawRows x0 cy rows d).1 a b = cellOf d.1 a b)
  | [], cy, d, a, b => ⟨fun ⟨_, _, r, _, h, _⟩ => absurd h (by simp), fun _ => rfl⟩
  | row :: rows, cy, d, a, b => by
    have h0 := drawColumns_cells x0 cy row _ eight_nodup d a b
    have ih := drawRows_cells x0 rows (cy + 1) (drawColumns x0 cy row [0, 1, 2, 3, 4, 5, 6, 7] d) a b
    rw [drawRows, spriteTouches_cons]
    by_cases hrow : rowTouches x0 cy row [0, 1, 2, 3, 4, 5, 6, 7] a b
    · exact ⟨fun _ => by rw [ih.2 (not_both_rows hrow), h0.1 hrow], fun h => absurd (.inl hrow) h⟩
    · refine ⟨fun h => ?_, fun h => ?_⟩
      · rw [ih.1 (h.resolve_left hrow), h0.2 hrow]
      · rw [ih.2 fun h' => h (.inr h'), h0.2 hrow]

/-- The collision of a whole sprite: a touched cell was on before (R112 (b)). -/
theorem drawRows_collision (x0 : Nat) :
    ∀ (rows : List Byte) (cy : Nat) (d : Grid × Bool),
      ((drawRows x0 cy rows d).2 = true ↔
        d.2 = true ∨ ∃ a b, spriteTouches x0 cy rows a b ∧ cellOf d.1 a b = true)
  | [], cy, d => by
    refine ⟨.inl, fun h => h.resolve_right ?_⟩
    rintro ⟨_, _, ⟨_, _, r, _, h, _⟩, _⟩
    exact absurd h (by simp)
  | row :: rows, cy, d => by
    rw [drawRows, drawRows_collision x0 rows, drawColumns_collision x0 cy row _ eight_nodup]
    have hcell : ∀ a b, spriteTouches x0 (cy + 1) rows a b →
        cellOf (drawColumns x0 cy row [0, 1, 2, 3, 4, 5, 6, 7] d).1 a b = cellOf d.1 a b := fun a b h =>
      (drawColumns_cells x0 cy row _ eight_nodup d a b).2 fun h' => not_both_rows h' h
    constructor
    · rintro ((h | ⟨a, b, ht, h⟩) | ⟨a, b, ht, h⟩)
      · exact .inl h
      · exact .inr ⟨a, b, spriteTouches_cons.2 (.inl ht), h⟩
      · exact .inr ⟨a, b, spriteTouches_cons.2 (.inr ht), by rwa [hcell a b ht] at h⟩
    · rintro (h | ⟨a, b, ht, h⟩)
      · exact .inl (.inl h)
      · rcases spriteTouches_cons.1 ht with ht | ht
        · exact .inl (.inr ⟨a, b, ht, h⟩)
        · exact .inr ⟨a, b, ht, by rwa [hcell a b ht]⟩

end Sys2Proof.Machine
end

