-- ==== Sys2Proof/Laws/Keys.lean ====
section
/-!
SUPPORT. The key an `Fx0A` waits for (spec/44_keypad_timer.md R122): none when every key is up, else the lowest down.
-/

namespace Sys2Proof.Machine

/-- No key is down. -/
theorem firstKeyDown_none {s : State} (h : ∀ k : Fin 16, s.key[k.val] = false) : firstKeyDown s = none := by
  rw [firstKeyDown, List.findIdx?_eq_none_iff]
  intro b hb
  obtain ⟨i, hi, rfl⟩ := List.getElem_of_mem hb
  have hi : i < 16 := by simpa using hi
  simpa using h ⟨i, hi⟩

/-- The lowest key that is down. -/
theorem firstKeyDown_some {s : State} {k : Fin 16} (hk : s.key[k.val] = true)
    (h : ∀ j : Fin 16, j < k → s.key[j.val] = false) : firstKeyDown s = some k.val := by
  rw [firstKeyDown, List.findIdx?_eq_some_iff_getElem]
  refine ⟨by simp, by simpa using hk, fun j hj => ?_⟩
  simpa using h ⟨j, by omega⟩ hj

/-- The key found is one of the sixteen, and it is down. -/
theorem firstKeyDown_lt {s : State} {k : Nat} (h : firstKeyDown s = some k) : k < 16 := by
  rw [firstKeyDown, List.findIdx?_eq_some_iff_getElem] at h
  obtain ⟨hk, _⟩ := h
  simpa using hk

end Sys2Proof.Machine
end

