-- ==== Sys2Proof/Laws/PerInstr.lean ====
section
/-!
SUPPORT. Statements made instruction by instruction. `FixedBits`: the word of an instruction carries the fixed bits of
its own row of the opcode map (spec/30_encoding.md R56), and that row is in the map.
-/

namespace Sys2Proof.Laws

/-- The row's mask keeps nibbles whole, so it may be applied nibble by nibble. -/
theorem wordOfNibbles_and (a b c d a' b' c' d' : Nibble) :
    wordOfNibbles a b c d &&& wordOfNibbles a' b' c' d' = wordOfNibbles (a &&& a') (b &&& b') (c &&& c') (d &&& d') := by
  simp only [wordOfNibbles]
  apply BitVec.eq_of_getLsbD_eq
  intro i _
  simp only [BitVec.getLsbD_and, BitVec.getLsbD_append]
  by_cases h0 : i < 4
  · simp [h0]
  · by_cases h1 : i - 4 < 4
    · simp [h0, h1]
    · by_cases h2 : i - 4 - 4 < 4 <;> simp [h0, h1, h2]

/-- The word of `i` is selected by its row, and the row is one of R56. -/
def FixedBits.Statement (i : Instr) : Prop := i.row.selects (encode i) = true ∧ i.row ∈ opcodeTable

/-- A word with the top nibble fixed. -/
theorem selects_top (op b c d : Nibble) :
    (OpcodeRow.mk (wordOfNibbles 0xF 0 0 0) (wordOfNibbles op 0 0 0)).selects (wordOfNibbles op b c d) = true := by
  rw [OpcodeRow.selects, wordOfNibbles_and, show op &&& 15 = op from BitVec.and_allOnes]
  simp

/-- A word with the top and the low nibble fixed. -/
theorem selects_ends (op b c d : Nibble) :
    (OpcodeRow.mk (wordOfNibbles 0xF 0 0 0xF) (wordOfNibbles op 0 0 d)).selects (wordOfNibbles op b c d) = true := by
  rw [OpcodeRow.selects, wordOfNibbles_and, show op &&& 15 = op from BitVec.and_allOnes,
    show d &&& 15 = d from BitVec.and_allOnes]
  simp

/-- A word with all but the register nibble fixed. -/
theorem selects_low (op b c d : Nibble) :
    (OpcodeRow.mk (wordOfNibbles 0xF 0 0xF 0xF) (wordOfNibbles op 0 c d)).selects (wordOfNibbles op b c d) = true := by
  rw [OpcodeRow.selects, wordOfNibbles_and, show op &&& 15 = op from BitVec.and_allOnes,
    show c &&& 15 = c from BitVec.and_allOnes, show d &&& 15 = d from BitVec.and_allOnes]
  simp

theorem FixedBits.cls : FixedBits.Statement (.cls) :=
  ⟨by decide, show OpcodeRow.mk 0xFFFF 0x00E0 ∈ opcodeTable by decide⟩

theorem FixedBits.ret : FixedBits.Statement (.ret) :=
  ⟨by decide, show OpcodeRow.mk 0xFFFF 0x00EE ∈ opcodeTable by decide⟩

theorem FixedBits.jpNnn (nnn : BitVec 12) : FixedBits.Statement (.jpNnn nnn) :=
  ⟨selects_top _ _ _ _, show OpcodeRow.mk 0xF000 0x1000 ∈ opcodeTable by decide⟩

theorem FixedBits.callNnn (nnn : BitVec 12) : FixedBits.Statement (.callNnn nnn) :=
  ⟨selects_top _ _ _ _, show OpcodeRow.mk 0xF000 0x2000 ∈ opcodeTable by decide⟩

theorem FixedBits.seVxNn (x : Reg) (nn : Byte) : FixedBits.Statement (.seVxNn x nn) :=
  ⟨selects_top _ _ _ _, show OpcodeRow.mk 0xF000 0x3000 ∈ opcodeTable by decide⟩

theorem FixedBits.sneVxNn (x : Reg) (nn : Byte) : FixedBits.Statement (.sneVxNn x nn) :=
  ⟨selects_top _ _ _ _, show OpcodeRow.mk 0xF000 0x4000 ∈ opcodeTable by decide⟩

theorem FixedBits.seVxVy (x y : Reg) : FixedBits.Statement (.seVxVy x y) :=
  ⟨selects_ends _ _ _ _, show OpcodeRow.mk 0xF00F 0x5000 ∈ opcodeTable by decide⟩

theorem FixedBits.sneVxVy (x y : Reg) : FixedBits.Statement (.sneVxVy x y) :=
  ⟨selects_ends _ _ _ _, show OpcodeRow.mk 0xF00F 0x9000 ∈ opcodeTable by decide⟩

theorem FixedBits.ldVxNn (x : Reg) (nn : Byte) : FixedBits.Statement (.ldVxNn x nn) :=
  ⟨selects_top _ _ _ _, show OpcodeRow.mk 0xF000 0x6000 ∈ opcodeTable by decide⟩

theorem FixedBits.addVxNn (x : Reg) (nn : Byte) : FixedBits.Statement (.addVxNn x nn) :=
  ⟨selects_top _ _ _ _, show OpcodeRow.mk 0xF000 0x7000 ∈ opcodeTable by decide⟩

theorem FixedBits.ldVxVy (x y : Reg) : FixedBits.Statement (.ldVxVy x y) :=
  ⟨selects_ends _ _ _ _, show OpcodeRow.mk 0xF00F 0x8000 ∈ opcodeTable by decide⟩

theorem FixedBits.orVxVy (x y : Reg) : FixedBits.Statement (.orVxVy x y) :=
  ⟨selects_ends _ _ _ _, show OpcodeRow.mk 0xF00F 0x8001 ∈ opcodeTable by decide⟩

theorem FixedBits.andVxVy (x y : Reg) : FixedBits.Statement (.andVxVy x y) :=
  ⟨selects_ends _ _ _ _, show OpcodeRow.mk 0xF00F 0x8002 ∈ opcodeTable by decide⟩

theorem FixedBits.xorVxVy (x y : Reg) : FixedBits.Statement (.xorVxVy x y) :=
  ⟨selects_ends _ _ _ _, show OpcodeRow.mk 0xF00F 0x8003 ∈ opcodeTable by decide⟩

theorem FixedBits.addVxVy (x y : Reg) : FixedBits.Statement (.addVxVy x y) :=
  ⟨selects_ends _ _ _ _, show OpcodeRow.mk 0xF00F 0x8004 ∈ opcodeTable by decide⟩

theorem FixedBits.subVxVy (x y : Reg) : FixedBits.Statement (.subVxVy x y) :=
  ⟨selects_ends _ _ _ _, show OpcodeRow.mk 0xF00F 0x8005 ∈ opcodeTable by decide⟩

theorem FixedBits.shrVx (x y : Reg) : FixedBits.Statement (.shrVx x y) :=
  ⟨selects_ends _ _ _ _, show OpcodeRow.mk 0xF00F 0x8006 ∈ opcodeTable by decide⟩

theorem FixedBits.subnVxVy (x y : Reg) : FixedBits.Statement (.subnVxVy x y) :=
  ⟨selects_ends _ _ _ _, show OpcodeRow.mk 0xF00F 0x8007 ∈ opcodeTable by decide⟩

theorem FixedBits.shlVx (x y : Reg) : FixedBits.Statement (.shlVx x y) :=
  ⟨selects_ends _ _ _ _, show OpcodeRow.mk 0xF00F 0x800E ∈ opcodeTable by decide⟩

theorem FixedBits.ldINnn (nnn : BitVec 12) : FixedBits.Statement (.ldINnn nnn) :=
  ⟨selects_top _ _ _ _, show OpcodeRow.mk 0xF000 0xA000 ∈ opcodeTable by decide⟩

theorem FixedBits.rndVxNn (x : Reg) (nn : Byte) : FixedBits.Statement (.rndVxNn x nn) :=
  ⟨selects_top _ _ _ _, show OpcodeRow.mk 0xF000 0xC000 ∈ opcodeTable by decide⟩

theorem FixedBits.drwVxVyN (x y : Reg) (n : Nibble) : FixedBits.Statement (.drwVxVyN x y n) :=
  ⟨selects_top _ _ _ _, show OpcodeRow.mk 0xF000 0xD000 ∈ opcodeTable by decide⟩

theorem FixedBits.skpVx (x : Reg) : FixedBits.Statement (.skpVx x) :=
  ⟨selects_low _ _ _ _, show OpcodeRow.mk 0xF0FF 0xE09E ∈ opcodeTable by decide⟩

theorem FixedBits.sknpVx (x : Reg) : FixedBits.Statement (.sknpVx x) :=
  ⟨selects_low _ _ _ _, show OpcodeRow.mk 0xF0FF 0xE0A1 ∈ opcodeTable by decide⟩

theorem FixedBits.ldVxK (x : Reg) : FixedBits.Statement (.ldVxK x) :=
  ⟨selects_low _ _ _ _, show OpcodeRow.mk 0xF0FF 0xF00A ∈ opcodeTable by decide⟩

theorem FixedBits.ldVxDt (x : Reg) : FixedBits.Statement (.ldVxDt x) :=
  ⟨selects_low _ _ _ _, show OpcodeRow.mk 0xF0FF 0xF007 ∈ opcodeTable by decide⟩

theorem FixedBits.ldDtVx (x : Reg) : FixedBits.Statement (.ldDtVx x) :=
  ⟨selects_low _ _ _ _, show OpcodeRow.mk 0xF0FF 0xF015 ∈ opcodeTable by decide⟩

theorem FixedBits.ldStVx (x : Reg) : FixedBits.Statement (.ldStVx x) :=
  ⟨selects_low _ _ _ _, show OpcodeRow.mk 0xF0FF 0xF018 ∈ opcodeTable by decide⟩

theorem FixedBits.addIVx (x : Reg) : FixedBits.Statement (.addIVx x) :=
  ⟨selects_low _ _ _ _, show OpcodeRow.mk 0xF0FF 0xF01E ∈ opcodeTable by decide⟩

theorem FixedBits.ldFVx (x : Reg) : FixedBits.Statement (.ldFVx x) :=
  ⟨selects_low _ _ _ _, show OpcodeRow.mk 0xF0FF 0xF029 ∈ opcodeTable by decide⟩

theorem FixedBits.ldBVx (x : Reg) : FixedBits.Statement (.ldBVx x) :=
  ⟨selects_low _ _ _ _, show OpcodeRow.mk 0xF0FF 0xF033 ∈ opcodeTable by decide⟩

theorem FixedBits.ldMemVx (x : Reg) : FixedBits.Statement (.ldMemVx x) :=
  ⟨selects_low _ _ _ _, show OpcodeRow.mk 0xF0FF 0xF055 ∈ opcodeTable by decide⟩

theorem FixedBits.ldVxMem (x : Reg) : FixedBits.Statement (.ldVxMem x) :=
  ⟨selects_low _ _ _ _, show OpcodeRow.mk 0xF0FF 0xF065 ∈ opcodeTable by decide⟩

end Sys2Proof.Laws
end

