-- ==== Sys2Proof/Laws/Timer.lean ====
section
/-!
SUPPORT. The timer loop (spec/60_exceptions.md R141), said once: its value never rises, and it ends drained.
-/

namespace Sys2Proof.Machine

/-- The value never rises. -/
theorem timerLoop_le (period : Nat) : ∀ v acc, (timerLoop period v acc).1 ≤ v
  | 0, _ => Nat.le_refl _
  | v + 1, acc => by
    unfold timerLoop
    split
    · exact Nat.le_succ_of_le (timerLoop_le period v _)
    · exact Nat.le_refl _

/-- After the loop the value is 0 or less than a period is left over. -/
theorem timerLoop_drained (period : Nat) :
    ∀ v acc, (timerLoop period v acc).1 = 0 ∨ (timerLoop period v acc).2 < period
  | 0, _ => .inl rfl
  | v + 1, acc => by
    unfold timerLoop
    split
    · exact timerLoop_drained period v _
    · exact .inr (by simp only; omega)

/-- What one turn of the loop does. -/
theorem timerLoop_succ (period v acc : Nat) :
    timerLoop period (v + 1) acc = if acc ≥ period then timerLoop period v (acc - period) else (v + 1, acc) := rfl

/-- The value an update leaves, as a number. -/
theorem timerUpdate_val_toNat (period : Nat) (t : Timer) (d : Nat) :
    (timerUpdate period t d).val.toNat = (timerLoop period t.val.toNat (t.acc + d)).1 := by
  have := timerLoop_le period t.val.toNat (t.acc + d)
  have := t.val.isLt
  simp only [timerUpdate, BitVec.toNat_ofNat]
  exact Nat.mod_eq_of_lt (by omega)

/-- The accumulator an update leaves. -/
theorem timerUpdate_acc (period : Nat) (t : Timer) (d : Nat) :
    (timerUpdate period t d).acc = (timerLoop period t.val.toNat (t.acc + d)).2 := rfl

/-- A timer is drained after an update. -/
theorem timerUpdate_drained (period : Nat) (t : Timer) (d : Nat) :
    (timerUpdate period t d).val = 0 ∨ (timerUpdate period t d).acc < period := by
  rcases timerLoop_drained period t.val.toNat (t.acc + d) with h | h
  · exact .inl (by simp [timerUpdate, h])
  · exact .inr h

end Sys2Proof.Machine
end

