-- ==== Sys2Proof/Tests/Slice0.lean ====
section
/-!
SUPPORT. Tests and witnesses. Expected results come from spec/95_test_vectors.md (named `T-...`, `P...`, `S...` in the
comments) or from the examples in the rules; words are written out bit by bit from spec/30_encoding.md R54 and R56. A
`witness_` theorem shows a concrete state and operands that meet the hypotheses of the obligation it names.
-/

namespace Sys2Proof.Tests

open Sys2Proof.Machine Sys2Proof.Safety

/-! Helpers: small changes to the reset state. -/

/-- The reset state with an instruction word at 0x200, where `pc` is. -/
def word (w : Nat) : State := State.reset.withFetchWord 16 w

/-- The reset state with `pc` moved and an instruction word there. -/
def wordAt (pc : Nat) (w : Nat) : State := (State.reset.setPc pc).withFetchWord 16 w

/-- Registers set, in order. -/
def regs (l : List (Reg × Byte)) (s : State) : State := l.foldl (fun t p => t.setV p.1 p.2) s

/-- Bytes of memory set, from an address on. -/
def poke (a : Nat) (bs : List Byte) (s : State) : State := placeImage s a bs

/-- A key held down. -/
def press (k : Fin 16) (s : State) : State := { s with key := s.key.set k.val true }

/-- Cells switched on. -/
def lit (l : List (Nat × Nat)) (s : State) : State :=
  { s with disp := l.foldl (fun g c => toggleCell g c.1 c.2) s.disp }

/-- The configuration with the other address policy. -/
def wrapConfig : Config := { Config.default with addrPolicy := .wrap }

/-- A configuration with the narrowest `pc` and index register R6 allows, under the other address policy. -/
def narrowConfig : Config := { wrapConfig with pcBits := 13, iBits := 13 }

/-- The reset state with `I` set. -/
def indexed (a : Nat) : State := State.reset.setIndex a

/-- The reset state under the other address policy, with `I` set. -/
def indexedWrap (a : Nat) : State := (State.resetWith wrapConfig).setIndex a

/-- The state after one tick with given inputs. -/
def ticked (dt : Nat) (rnd : Byte) (s : State) : State :=
  match tick dt rnd s with
  | .next t => t
  | _ => s

/-- The state after one tick with both inputs 0. -/
def run (s : State) : State := ticked 0 0 s

/-- The state after an instruction executed in the state after its fetch. -/
def done (i : Instr) (s : State) : State :=
  match exec i s with
  | .next t => t
  | _ => s

/-! Well-formedness: one illegal word for each group of R57, and one violation of each clause of a configuration. -/

theorem test_illegal_zero_group : legalWord 0x0000 = false := by decide
theorem test_illegal_five_group : legalWord 0x5121 = false := by decide
theorem test_illegal_eight_group : legalWord 0x8128 = false := by decide
theorem test_illegal_nine_group : legalWord 0x912F = false := by decide
theorem test_illegal_b_group : legalWord 0xB123 = false := by decide
theorem test_illegal_e_group : legalWord 0xE19F = false := by decide
theorem test_illegal_f_group : legalWord 0xF175 = false := by decide
theorem test_config_default_ok : Config.default.Ok := by decide
theorem test_config_font_base : ¬ { Config.default with fontBase := 4017 }.Ok := by decide
theorem test_config_prog_start : ¬ { Config.default with progStart := 4095 }.Ok := by decide
theorem test_config_stack_depth : ¬ { Config.default with stackDepth := 0 }.Ok := by decide
theorem test_config_timer_period : ¬ { Config.default with timerPeriod := 0 }.Ok := by decide
theorem test_config_font_data : ¬ { Config.default with fontData := [0xF0] }.Ok := by decide
theorem test_config_pc_bits : ¬ { Config.default with pcBits := 12 }.Ok := by decide
theorem test_config_i_bits : ¬ { Config.default with iBits := 12 }.Ok := by decide
theorem test_config_narrow_ok : narrowConfig.Ok := by decide
theorem test_config_colours : ¬ { Config.default with colorOff := 1 }.Ok := by decide

/-! Memory: an ill-formed list for each condition of the canonical form. -/

theorem test_memory_not_rising : Memory.wf Config.default [(0x301, 1), (0x300, 1)] = false := by decide
theorem test_memory_repeated : Memory.wf Config.default [(0x300, 1), (0x300, 2)] = false := by decide
theorem test_memory_outside : Memory.wf Config.default [(4096, 1)] = false := by decide
theorem test_memory_lists_reset_byte : Memory.wf Config.default [(0x050, 0xF0)] = false := by decide

/-! Decoding: one word for every row of R56, tag and operand nibbles written out. -/

theorem test_decode_cls : decode 0b0000000011100000 = .ok .cls := by decide
theorem test_decode_ret : decode 0b0000000011101110 = .ok .ret := by decide
theorem test_decode_jp : decode 0b0001001000110100 = .ok (.jpNnn 0x234) := by decide
theorem test_decode_call : decode 0b0010001100000001 = .ok (.callNnn 0x301) := by decide
theorem test_decode_se_literal : decode 0b0011111100000001 = .ok (.seVxNn 15 0x01) := by decide
theorem test_decode_sne_literal : decode 0b0100001110000010 = .ok (.sneVxNn 3 0x82) := by decide
theorem test_decode_se_registers : decode 0b0101000100100000 = .ok (.seVxVy 1 2) := by decide
theorem test_decode_sne_registers : decode 0b1001000100100000 = .ok (.sneVxVy 1 2) := by decide
theorem test_decode_ld_literal : decode 0b0110101000101100 = .ok (.ldVxNn 10 0x2C) := by decide
theorem test_decode_add_literal : decode 0b0111000110000010 = .ok (.addVxNn 1 0x82) := by decide
theorem test_decode_assign : decode 0b1000111011110000 = .ok (.ldVxVy 14 15) := by decide
theorem test_decode_or : decode 0b1000000100100001 = .ok (.orVxVy 1 2) := by decide
theorem test_decode_and : decode 0b1000000100100010 = .ok (.andVxVy 1 2) := by decide
theorem test_decode_xor : decode 0b1000000100100011 = .ok (.xorVxVy 1 2) := by decide
theorem test_decode_add_registers : decode 0b1000101010110100 = .ok (.addVxVy 10 11) := by decide
theorem test_decode_sub : decode 0b1000000100100101 = .ok (.subVxVy 1 2) := by decide
theorem test_decode_shr : decode 0b1000001101110110 = .ok (.shrVx 3 7) := by decide
theorem test_decode_subn : decode 0b1000000100100111 = .ok (.subnVxVy 1 2) := by decide
theorem test_decode_shl : decode 0b1000001101111110 = .ok (.shlVx 3 7) := by decide
theorem test_decode_ld_index : decode 0b1010001011110000 = .ok (.ldINnn 0x2F0) := by decide
theorem test_decode_rnd : decode 0b1100001100001111 = .ok (.rndVxNn 3 0x0F) := by decide
theorem test_decode_drw : decode 0b1101000100100011 = .ok (.drwVxVyN 1 2 3) := by decide
theorem test_decode_skp : decode 0b1110010110011110 = .ok (.skpVx 5) := by decide
theorem test_decode_sknp : decode 0b1110010110100001 = .ok (.sknpVx 5) := by decide
theorem test_decode_key_wait : decode 0b1111001100001010 = .ok (.ldVxK 3) := by decide
theorem test_decode_read_delay : decode 0b1111010000000111 = .ok (.ldVxDt 4) := by decide
theorem test_decode_set_delay : decode 0b1111001100010101 = .ok (.ldDtVx 3) := by decide
theorem test_decode_set_sound : decode 0b1111000000011000 = .ok (.ldStVx 0) := by decide
theorem test_decode_add_index : decode 0b1111001000011110 = .ok (.addIVx 2) := by decide
theorem test_decode_font : decode 0b1111000000101001 = .ok (.ldFVx 0) := by decide
theorem test_decode_bcd : decode 0b1111011100110011 = .ok (.ldBVx 7) := by decide
theorem test_decode_dump : decode 0b1111001001010101 = .ok (.ldMemVx 2) := by decide
theorem test_decode_load : decode 0b1111010101100101 = .ok (.ldVxMem 5) := by decide

/-- T-DEC-1, T-DEC-2: the byte order, the first byte the high half. -/
theorem test_byte_order : decode (wordOfBytes 0x00 0xE0) = .ok .cls ∧ decode (wordOfBytes 0xE0 0x00) = .error .eGroup := by
  decide

/-- The table's numbering: bit 0 is the least significant bit of the word, which is stored high byte first. -/
theorem test_table_word : decodeTableWord 16 0x6A2C = some (.ldVxNn 10 0x2C) ∧ decodeTableWord 16 0xB000 = none := by decide

/-- The encoder's bytes of `LD I, 0x20E`, from program P3: `A2 0E`. -/
theorem test_encode_bytes : encodeBytes (.ldINnn 0x20E) = [0xA2, 0x0E] := by decide

/-! Control transfer. -/

/-- T-CTL-1. -/
theorem test_jp : (run (word 0x1234)).pc = 0x234 := by decide
/-- T-CTL-4: an odd target is accepted. -/
theorem test_jp_odd : (run (word 0x1201)).pc = 0x201 := by decide
/-- T-CTL-5. -/
theorem test_call : (run (word 0x2300)).stack[0]? = some 0x202 ∧ (run (word 0x2300)).sp = 1 ∧
    (run (word 0x2300)).pc = 0x300 := by decide
/-- T-CTL-6. -/
theorem test_call_full : (run { word 0x2300 with sp := 16 }).fault = some (.stackOverflow 0x202) ∧
    (run { word 0x2300 with sp := 16 }).pc = 0x202 := by decide
/-- T-CTL-9: last in, first out. -/
theorem test_ret : (run { word 0x00EE with sp := 2, stack := [0x206, 0x30A] }).pc = 0x30A ∧
    (run { word 0x00EE with sp := 2, stack := [0x206, 0x30A] }).sp = 1 := by decide
/-- T-CTL-8, P7. -/
theorem test_ret_empty : (run (word 0x00EE)).fault = some .stackUnderflow ∧ (run (word 0x00EE)).pc = 0x202 := by decide
/-- T-CTL-24: the flag register compares like any other. -/
theorem test_se_literal : (run (regs [(15, 1)] (word 0x3F01))).pc = 0x204 := by decide
/-- T-CTL-11. -/
theorem test_se_literal_not : (run (regs [(3, 0x11)] (word 0x3310))).pc = 0x202 := by decide
/-- T-CTL-13. -/
theorem test_sne_literal : (run (regs [(3, 0x11)] (word 0x4310))).pc = 0x204 := by decide
/-- T-CTL-12. -/
theorem test_sne_literal_not : (run (regs [(3, 0x10)] (word 0x4310))).pc = 0x202 := by decide
/-- T-CTL-16: `x = y` always skips. -/
theorem test_se_registers : (run (regs [(4, 0x9C)] (word 0x5440))).pc = 0x204 := by decide
/-- T-CTL-15. -/
theorem test_se_registers_not : (run (regs [(1, 7), (2, 8)] (word 0x5120))).pc = 0x202 := by decide
/-- T-CTL-17. -/
theorem test_sne_registers : (run (regs [(1, 7), (2, 8)] (word 0x9120))).pc = 0x204 := by decide
/-- T-CTL-19: `x = y` never skips. -/
theorem test_sne_registers_not : (run (regs [(4, 0x9C)] (word 0x9440))).pc = 0x202 := by decide
/-- T-CTL-20: a skipped word is not decoded. -/
theorem test_skip_illegal_word : (run (poke 0x202 [0xFF, 0xFF] (word 0x3000))).pc = 0x204 ∧
    (run (poke 0x202 [0xFF, 0xFF] (word 0x3000))).halted = false := by decide
/-- T-CTL-22: the extra fetch faults at the top of memory, `pc` advanced once. -/
theorem test_skip_at_top : (run (wordAt 0xFFE 0x3000)).fault = some (.addressFault 4096 .fetch) ∧
    (run (wordAt 0xFFE 0x3000)).pc = 0x1000 := by decide

/-! Load, ALU, random. -/

/-- T-ALU-1. -/
theorem test_ld_literal : (run (word 0x6A2C)).v[10] = 0x2C := by decide
/-- T-ALU-3: no flag. -/
theorem test_add_literal : (run (regs [(1, 0xFF)] (word 0x7102))).v[1] = 0x01 ∧
    (run (regs [(1, 0xFF)] (word 0x7102))).v[15] = 0 := by decide
/-- T-ALU-5. -/
theorem test_assign : (run (regs [(2, 0x33)] (word 0x8120))).v[1] = 0x33 := by decide
/-- T-ALU-6b. -/
theorem test_or : (run (regs [(1, 0xF3), (2, 0x3F)] (word 0x8121))).v[1] = 0xFF := by decide
/-- T-ALU-6b. -/
theorem test_and : (run (regs [(1, 0xF3), (2, 0x3F)] (word 0x8122))).v[1] = 0x33 := by decide
/-- T-ALU-6b. -/
theorem test_xor : (run (regs [(1, 0xF3), (2, 0x3F)] (word 0x8123))).v[1] = 0xCC := by decide
/-- T-ALU-6: `VF` untouched by the logical operations. -/
theorem test_logic_flag : (run (regs [(1, 0xF0), (2, 0x0F), (15, 1)] (word 0x8122))).v[15] = 1 := by decide
/-- T-ALU-11b: the old flag is the operand. -/
theorem test_add_registers : (run (regs [(0, 0x10), (15, 1)] (word 0x80F4))).v[0] = 0x11 ∧
    (run (regs [(0, 0x10), (15, 1)] (word 0x80F4))).v[15] = 0 := by decide
/-- T-ALU-11: the sum is overwritten by the flag. -/
theorem test_add_registers_vf : (run (regs [(15, 0xC8), (1, 0x64)] (word 0x8F14))).v[15] = 1 := by decide
/-- T-ALU-13: borrow. -/
theorem test_sub : (run (regs [(0, 1), (1, 2)] (word 0x8015))).v[0] = 0xFF ∧
    (run (regs [(0, 1), (1, 2)] (word 0x8015))).v[15] = 0 := by decide
/-- T-ALU-14: equal is no borrow. -/
theorem test_sub_equal : (run (regs [(0, 7), (1, 7)] (word 0x8015))).v[15] = 1 := by decide
/-- T-ALU-18: `V[y]` ignored, zero shifted in. -/
theorem test_shr : (run (regs [(3, 0xFF)] (word 0x8376))).v[3] = 0x7F ∧
    (run (regs [(3, 0xFF)] (word 0x8376))).v[15] = 1 := by decide
/-- T-ALU-19, second part. -/
theorem test_shr_vf : (run (regs [(15, 2)] (word 0x8F06))).v[15] = 0 := by decide
/-- T-ALU-21. -/
theorem test_subn : (run (regs [(0, 1), (1, 3)] (word 0x8017))).v[0] = 2 ∧
    (run (regs [(0, 1), (1, 3)] (word 0x8017))).v[15] = 1 := by decide
/-- T-ALU-20: borrow. -/
theorem test_subn_borrow : (run (regs [(0, 2), (1, 1)] (word 0x8017))).v[0] = 0xFF ∧
    (run (regs [(0, 2), (1, 1)] (word 0x8017))).v[15] = 0 := by decide
/-- T-ALU-23. -/
theorem test_shl : (run (regs [(3, 0x81)] (word 0x830E))).v[3] = 0x02 ∧
    (run (regs [(3, 0x81)] (word 0x830E))).v[15] = 1 := by decide
/-- T-ALU-25, second part. -/
theorem test_shl_vf : (run (regs [(15, 0x41)] (word 0x8F0E))).v[15] = 0 := by decide
/-- T-ALU-26. -/
theorem test_rnd : (ticked 0 0xA7 (word 0xC30F)).v[3] = 0x07 := by decide

/-! Index register and memory. -/

/-- T-IDX-1. -/
theorem test_ld_index : (run (word 0xA2F0)).index = 0x2F0 := by decide
/-- T-IDX-3: above 4095, no flag, no fault. -/
theorem test_add_index : (run (regs [(2, 2)] ((word 0xF21E).setIndex 0xFFF))).index = 0x1001 ∧
    (run (regs [(2, 2)] ((word 0xF21E).setIndex 0xFFF))).halted = false := by decide
/-- T-IDX-4, and the same sum of R101 one below `2^I_BITS` with I_BITS = 13. -/
theorem test_add_index_wraps : (run (regs [(2, 2)] ((word 0xF21E).setIndex 0xFFFF))).index = 0x0001 ∧
    (run (regs [(2, 2)] (((State.resetWith narrowConfig).withFetchWord 16 0xF21E).setIndex 0x1FFF))).index = 0x0001 := by
  decide
/-- T-IDX-5. -/
theorem test_font : (run (regs [(0, 0x0A)] (word 0xF029))).index = 0x082 := by decide
/-- T-IDX-6: unmasked. -/
theorem test_font_unmasked : (run (regs [(0, 0xFF)] (word 0xF029))).index = 0x54B := by decide
/-- T-IDX-10: the last three bytes of memory. -/
theorem test_bcd : ((run (regs [(7, 123)] ((word 0xF733).setIndex 0xFFD))).mem.drop 2) =
    [(0xFFD, 1), (0xFFE, 2), (0xFFF, 3)] := by decide
/-- T-IDX-11: nothing written. -/
theorem test_bcd_fault : (run (regs [(7, 123)] ((word 0xF733).setIndex 0xFFE))).fault =
      some (.addressFault 4096 .write) ∧
    (run (regs [(7, 123)] ((word 0xF733).setIndex 0xFFE))).mem = (word 0xF733).mem := by decide
/-- T-IDX-12: up to and including `V[x]`, `I` unchanged. -/
theorem test_dump : ((run (regs [(0, 1), (1, 2), (2, 3), (3, 4)] ((word 0xF255).setIndex 0x400))).mem.drop 2) =
      [(0x400, 1), (0x401, 2), (0x402, 3)] ∧
    (run (regs [(0, 1), (1, 2), (2, 3), (3, 4)] ((word 0xF255).setIndex 0x400))).index = 0x400 := by decide
/-- T-IDX-20: the font's first byte is overwritten. -/
theorem test_dump_font : (run (regs [(0, 0xAB)] ((word 0xF055).setIndex 0x050))).byteAt 0x050 = 0xAB := by decide
/-- T-IDX-16. -/
theorem test_load : (run (regs [(3, 0xEE)] (poke 0x300 [2, 1, 5, 0x77] ((word 0xF265).setIndex 0x300)))).v.toList.take 4 =
    [2, 1, 5, 0xEE] := by decide
/-- T-IDX-18: no register written. -/
theorem test_load_fault : (run (poke 0xFFF [0x5A] ((word 0xF165).setIndex 0xFFF))).fault =
      some (.addressFault 4096 .read) ∧
    (run (poke 0xFFF [0x5A] ((word 0xF165).setIndex 0xFFF))).v[0] = 0 := by decide

/-! Display. -/

/-- S9, T-DRW-1. -/
theorem test_cls : cellOf (run (lit [(5, 6)] (word 0x00E0))).disp 5 6 = false ∧
    (run (lit [(5, 6)] (word 0x00E0))).pc = 0x202 := by decide
/-- T-DRW-8: one cell erased, one lit. -/
theorem test_drw : (run (lit [(0, 0)] (poke 0x300 [0xC0] ((word 0xD121).setIndex 0x300)))).disp = (lit [(1, 0)] State.reset).disp ∧
    (run (lit [(0, 0)] (poke 0x300 [0xC0] ((word 0xD121).setIndex 0x300)))).v[15] = 1 := by decide
/-- T-DRW-10: clipped columns neither wrap nor collide. -/
theorem test_drw_clipped :
    (run (lit [(3, 0)] (regs [(1, 60)] (poke 0x300 [0xFF] ((word 0xD121).setIndex 0x300))))).disp =
      (lit [(3, 0), (60, 0), (61, 0), (62, 0), (63, 0)] State.reset).disp ∧
    (run (lit [(3, 0)] (regs [(1, 60)] (poke 0x300 [0xFF] ((word 0xD121).setIndex 0x300))))).v[15] = 0 := by decide

/-! Keypad and timers. -/

/-- T-KEY-1. -/
theorem test_skp : (run (press 10 (regs [(5, 0x0A)] (word 0xE59E)))).pc = 0x204 := by decide
/-- T-KEY-6: the low nibble is not used. -/
theorem test_skp_index : (run (press 10 (regs [(5, 0x1A)] (word 0xE59E)))).fault = some (.keyIndexFault 0x1A) := by decide
/-- T-KEY-3. -/
theorem test_sknp_down : (run (press 10 (regs [(5, 0x0A)] (word 0xE5A1)))).pc = 0x202 := by decide
/-- T-KEY-4. -/
theorem test_sknp_up : (run (regs [(5, 0x0A)] (word 0xE5A1))).pc = 0x204 := by decide
/-- T-KEY-7. -/
theorem test_key_wait : (run (regs [(3, 0x55)] (word 0xF30A))).pc = 0x200 ∧
    (run (regs [(3, 0x55)] (word 0xF30A))).v[3] = 0x55 := by decide
/-- T-KEY-8: the lowest key. -/
theorem test_key_found : (run (press 9 (press 7 (word 0xF30A)))).v[3] = 7 ∧
    (run (press 9 (press 7 (word 0xF30A)))).pc = 0x202 := by decide
/-- T-TMR-13 (`P = 100`): the update precedes the instruction. -/
theorem test_read_delay : (ticked 200 0 { word 0xF407 with dt := ⟨0x2A, 0⟩ }).v[4] = 0x28 := by decide
/-- T-TMR-10. -/
theorem test_set_delay : (run (regs [(3, 0x3C)] (word 0xF315))).dt = ⟨60, 0⟩ := by decide
/-- T-TMR-11. -/
theorem test_set_sound : (run (regs [(0, 5)] (word 0xF018))).st = ⟨5, 0⟩ ∧
    (run (regs [(0, 5)] (word 0xF018))).dt = ⟨0, 0⟩ := by decide
/-- T-TMR-6: three decrements, then saturated. -/
theorem test_timer_saturates : timerUpdate 100 ⟨3, 0⟩ 1007 = ⟨0, 707⟩ := by decide
/-- T-TMR-5: exactly one period. -/
theorem test_timer_exact : timerUpdate 100 ⟨3, 99⟩ 1 = ⟨2, 0⟩ := by decide

/-! The tick and the host operations. -/

/-- T-HOST-7, T-ILL-1: a tick with nothing loaded; both timers were updated first. -/
theorem test_tick_nothing_loaded : (ticked 30 0 State.reset).fault = some (.illegalInstruction 0x0000 0x200) ∧
    (ticked 30 0 State.reset).pc = 0x202 ∧ (ticked 30 0 State.reset).dt = ⟨0, 30⟩ := by decide
/-- T-CTL-2, second tick: the fault of a fetch leaves `pc` as it was. -/
theorem test_fetch_at_top : (run (State.reset.setPc 0xFFF)).fault = some (.addressFault 4096 .fetch) ∧
    (run (State.reset.setPc 0xFFF)).pc = 0xFFF := by decide
/-- R50 with PC_BITS = 13 under `wrap`: `pc + 2` wraps after the last word, and R122: a wait there goes back to it. -/
theorem test_pc_wraps : (run (((State.resetWith narrowConfig).setPc 8190).withFetchWord 16 0x6A2C)).pc = 0 ∧
    (run (((State.resetWith narrowConfig).setPc 8190).withFetchWord 16 0xF30A)).pc = 8190 := by decide
/-- T-TMR-16: timers frozen while halted. -/
theorem test_halted : (ticked 300 0 { word 0x1200 with halted := true, dt := ⟨5, 0⟩ }).dt = ⟨5, 0⟩ := by decide
/-- The step runs the placed instruction, whatever the free inputs are. -/
theorem test_step_runs : step (word 0x6A2C) =
    .next ((afterFetch (Config.freeDt 0) (Config.freeRnd 0) (word 0x6A2C)).setV 10 0x2C) := by rfl
/-- T-HOST-5. -/
theorem test_render : (render (lit [(1, 0), (0, 1)] State.reset))[1]? = some 1 ∧
    (render (lit [(1, 0), (0, 1)] State.reset))[64]? = some 1 ∧
    (render (lit [(1, 0), (0, 1)] State.reset))[65]? = some 0 := by decide +kernel

/-! Witnesses: encoding. -/

/-- `OpcodePatternsAreMutuallyExclusive`: a word and a row that selects it. -/
theorem witness_row : (⟨0xF00F, 0x800E⟩ : OpcodeRow) ∈ opcodeTable ∧
    (⟨0xF00F, 0x800E⟩ : OpcodeRow).selects 0x837E = true := by decide
/-- `ExecuteDispatchesByPatternMatch`, second clause: a word no row selects. -/
theorem witness_no_row : ∀ r ∈ opcodeTable, r.selects 0x8378 = false := by decide
/-- `EncodeOfDecodedWordIsThatWord`: a word that is decoded. -/
theorem witness_decoded : decode 0xFF65 = .ok (.ldVxMem 15) := by decide

/-! Witnesses: the tick. -/

/-- `StepRunsTheDecodedInstruction`: the last address an instruction is fetched from, under `fault`. -/
theorem witness_step : (wordAt 4094 0x6A2C).halted = false ∧ InReach (wordAt 4094 0x6A2C).cfg 4094 2 ∧
    decode (fetchedWord (wordAt 4094 0x6A2C)) = .ok (.ldVxNn 10 0x2C) :=
  ⟨by decide, .inr (by decide), by decide⟩
/-- The same under `wrap`, where the second byte is the one at address 0. -/
theorem witness_step_wrap : InReach wrapConfig 4095 2 ∧
    decode (fetchedWord (((State.resetWith wrapConfig).setPc 4095).withFetchWord 16 0x6A2C)) = .ok (.ldVxNn 10 0x2C) ∧
    (((State.resetWith wrapConfig).setPc 4095).withFetchWord 16 0x6A2C).byteAt 0 = 0x2C :=
  ⟨.inl rfl, by decide, by decide⟩
/-- `IllegalWordHaltsWithItsAddress`. -/
theorem witness_illegal : State.reset.halted = false ∧ State.reset.pc < 2 ^ State.reset.cfg.pcBits ∧
    InReach State.reset.cfg State.reset.pc 2 ∧
    decode (fetchedWord State.reset) = .error .zeroGroup :=
  ⟨rfl, by decide, .inr (by decide), by decide⟩
/-- `FetchAtTheTopOfMemoryFollowsThePolicy`: both policies at the boundary address. -/
theorem witness_fetch_top : (State.reset.setPc 4095).halted = false ∧ (State.reset.setPc 4095).cfg.addrPolicy = .fault ∧
    4095 ≤ (State.reset.setPc 4095).pc ∧ (State.resetWith wrapConfig).cfg.addrPolicy = .wrap := by decide
/-- `HaltedStateIsAbsorbing`: a halted state, a key that is set on it, and a load that leaves the halt. -/
theorem witness_halted : (raise .stackUnderflow State.reset).halted = true ∧
    (∃ t, Machine.move (.keySet 15 true) (raise .stackUnderflow State.reset) = .next t ∧ t.halted = true) ∧
    (∃ t, Machine.move (.load [0x12, 0x00]) (raise .stackUnderflow State.reset) = .next t ∧ t.halted = false) :=
  ⟨rfl, ⟨_, rfl, rfl⟩, ⟨_, rfl, by decide⟩⟩
/-- `FaultsArePrecise`: an instruction of each kind. -/
theorem witness_precise : (∃ t, exec .cls State.reset = .next t ∧ t.fault = none) ∧
    exec .ret State.reset = .next (raise .stackUnderflow State.reset) := ⟨⟨_, rfl, rfl⟩, rfl⟩
/-- `WrapPolicyNeverRaisesAnAddressFault`: a tick that would fault under the other policy (T-IDX-19). -/
theorem witness_wrap : ((indexedWrap 0x1001).withFetchWord 16 0xF055).cfg.addrPolicy = .wrap ∧
    ((indexedWrap 0x1001).withFetchWord 16 0xF055).fault = none ∧
    ∃ t, tick 0 0 ((indexedWrap 0x1001).withFetchWord 16 0xF055) = .next t ∧ t.fault = none :=
  ⟨rfl, rfl, _, rfl, by decide⟩
/-- `TickUpdatesBothTimersFirst`: a tick that leaves the timers as updated, and one that sets the delay timer. -/
theorem witness_timers : (ticked 400 0 { word 0x1200 with dt := ⟨9, 0⟩, st := ⟨2, 0⟩ }).dt = ⟨5, 0⟩ ∧
    (ticked 400 0 { word 0x1200 with dt := ⟨9, 0⟩, st := ⟨2, 0⟩ }).st = ⟨0, 200⟩ ∧
    (ticked 400 0 (regs [(3, 7)] (word 0xF315))).dt = ⟨7, 0⟩ := by decide
/-- `TimerUpdateTakesOffWholePeriods`, `TimerOfThreePeriodsReachesZero`: the smallest period, and a timer at 0. -/
theorem witness_period : 1 ≤ 1 ∧ timerUpdate 1 ⟨3, 0⟩ 3 = ⟨0, 0⟩ ∧ (⟨0, 500⟩ : Timer).val = 0 := by decide

/-! Witnesses: control transfer. -/

/-- `JumpToItselfLeavesPcConstant` (T-CTL-3). -/
theorem witness_jump_self : (word 0x1200).halted = false ∧ InReach (word 0x1200).cfg (word 0x1200).pc 2 ∧
    decode (fetchedWord (word 0x1200)) = .ok (.jpNnn 0x200) ∧ (0x200#12).toNat = (word 0x1200).pc :=
  ⟨by decide, .inr (by decide), by decide, by decide⟩
/-- `CallPushesTheReturnAddress`: one free entry, and none. -/
theorem witness_call : State.reset.stack.length = State.reset.cfg.stackDepth ∧
    ({ State.reset with sp := 15 } : State).sp < State.reset.cfg.stackDepth ∧
    ({ State.reset with sp := 16 } : State).sp = State.reset.cfg.stackDepth := by decide
/-- `ReturnPopsTheStackIntoPc`: one entry, and none. -/
theorem witness_ret : ({ State.reset with sp := 1 } : State).sp = 0 + 1 ∧ State.reset.stack[0]? = some 0 ∧
    State.reset.sp = 0 := by decide
/-- `ComparingSkipsPassOneInstruction` and `KeySkipsTestTheKeyLevel`: the extra fetch in reach, and out of it. -/
theorem witness_skip : InReach State.reset.cfg (State.reset.setPc 4094).pc 2 ∧
    OutOfReach State.reset.cfg (State.reset.setPc 4095).pc 2 ∧
    InReach (State.resetWith wrapConfig).cfg ((State.resetWith wrapConfig).setPc 4095).pc 2 :=
  ⟨.inr (by decide), ⟨rfl, by decide, by decide⟩, .inl rfl⟩
/-- `ComparingSkipsPassOneInstruction`: equal and different operands. -/
theorem witness_compare : State.reset.v[0] = 0x00 ∧ State.reset.v[0] ≠ 0x01 ∧
    (regs [(1, 7)] State.reset).v[1] ≠ (regs [(1, 7)] State.reset).v[2] := by decide

/-! Witnesses: ALU, random, index and memory. -/

/-- `AddRegistersSetsCarry`, `SubtractSetsNotBorrow`, `ReverseSubtractSetsNotBorrow`, `ShiftsMoveOneBitIntoTheFlag`: the
flags are both 0 and 1 at the boundary (T-ALU-8, T-ALU-9, T-ALU-14). -/
theorem witness_flags : (done (.addVxVy 0 1) (regs [(0, 0xFF)] State.reset)).v[15] = 0 ∧
    (done (.addVxVy 0 1) (regs [(0, 0xFF), (1, 1)] State.reset)).v[15] = 1 ∧
    (done (.subVxVy 0 1) State.reset).v[15] = 1 ∧ (done (.subnVxVy 0 1) (regs [(0, 1)] State.reset)).v[15] = 0 := by
  decide
/-- `RandomIsTheDrawMasked`, second clause. -/
theorem witness_random : (word 0xC30F).halted = false ∧ InReach (word 0xC30F).cfg (word 0xC30F).pc 2 ∧
    decode (fetchedWord (word 0xC30F)) = .ok (.rndVxNn 3 0x0F) :=
  ⟨by decide, .inr (by decide), by decide⟩
/-- `FontAddressIsUnmasked`, `LoadPlacesTheImage`, `ResetLeavesTheListedValues`: a legal configuration. -/
theorem witness_config : State.reset.cfg.Ok := by decide
/-- `BcdStoreWritesThreeDigits`: the last place in reach, the first one out of it, and one that wraps. -/
theorem witness_bcd : (∀ a, Memory.wf (indexed a).cfg (indexed a).mem = true) ∧
    InReach (indexed 0xFFD).cfg (indexed 0xFFD).index 3 ∧ OutOfReach (indexed 0xFFE).cfg (indexed 0xFFE).index 3 ∧
    Memory.wf (indexedWrap 0xFFE).cfg (indexedWrap 0xFFE).mem = true ∧
    InReach (indexedWrap 0xFFE).cfg (indexedWrap 0xFFE).index 3 :=
  ⟨fun _ => rfl, .inr (by decide), ⟨rfl, by decide, by decide⟩, rfl, .inl rfl⟩
/-- `RegisterDumpStoresUpToX`, `RegisterLoadReadsUpToX`, `LoadAfterDumpRestoresRegisters`: all sixteen registers at the
last place in reach (T-IDX-14), one further (T-IDX-15), and one register at the last byte. -/
theorem witness_dump : (∀ a, Memory.wf (indexed a).cfg (indexed a).mem = true) ∧
    InReach (indexed 0xFF0).cfg (indexed 0xFF0).index ((15 : Reg).val + 1) ∧
    OutOfReach (indexed 0xFF1).cfg (indexed 0xFF1).index ((15 : Reg).val + 1) ∧
    InReach (indexed 0xFFF).cfg (indexed 0xFFF).index ((0 : Reg).val + 1) ∧
    Memory.wf (indexedWrap 0xFF1).cfg (indexedWrap 0xFF1).mem = true ∧
    InReach (indexedWrap 0xFF1).cfg (indexedWrap 0xFF1).index ((15 : Reg).val + 1) :=
  ⟨fun _ => rfl, .inr (by decide), ⟨rfl, by decide, by decide⟩, .inr (by decide), rfl, .inl rfl⟩
/-- `WriteChangesExactlyTheAddressedByte`: the last byte of memory, and the wrapped address after it. -/
theorem witness_write : Memory.wf State.reset.cfg State.reset.mem = true ∧ InReach State.reset.cfg 4095 1 ∧
    Memory.wf (indexedWrap 0).cfg (indexedWrap 0).mem = true ∧ InReach (indexedWrap 0).cfg 4096 1 :=
  ⟨rfl, .inr (by decide), rfl, .inl rfl⟩
/-- `StoreIsSeenByTheNextFetch`: `LD [I], V1` storing into its successor's bytes. -/
theorem witness_store_fetch : Memory.wf (indexed 0x200).cfg (indexed 0x200).mem = true ∧
    (indexed 0x200).halted = false ∧ 1 ≤ (1 : Reg).val ∧ (indexed 0x200).index = (indexed 0x200).pc ∧
    InReach (indexed 0x200).cfg (indexed 0x200).pc ((1 : Reg).val + 1) :=
  ⟨rfl, rfl, by decide, by decide, .inr (by decide)⟩

/-! Witnesses: display. -/

/-- `DrawTogglesTheSpriteCells`: fifteen rows at the last place in reach, one further, and no row beyond memory. -/
theorem witness_draw : InReach (indexed 0xFF1).cfg (indexed 0xFF1).index (15 : Nibble).toNat ∧
    OutOfReach (indexed 0xFF2).cfg (indexed 0xFF2).index (15 : Nibble).toNat ∧ (0 : Nibble) = 0 ∧
    ¬ OutOfReach (indexed 0xFFFF).cfg (indexed 0xFFFF).index (0 : Nibble).toNat :=
  ⟨.inr (by decide), ⟨rfl, by decide, by decide⟩, rfl, fun h => absurd h.2.1 (by decide)⟩
/-- `DrawTogglesTheSpriteCells`: a cell under a sprite bit at the corner (T-DRW-5b), which was off. -/
theorem witness_covers : SpriteCovers (regs [(1, 0xFF), (2, 0xFF)] (poke 0x300 [0x80] (State.reset.setIndex 0x300))) 1 2 1
      63 31 ∧ cellOf State.reset.disp 63 31 = false :=
  ⟨⟨0, 0, by decide, by decide, by decide, by decide, by decide⟩, by decide⟩
/-- `DrawTogglesTheSpriteCells`: the collision clauses, one draw without and one with (T-DRW-9, T-DRW-8). -/
theorem witness_collision :
    (done (.drwVxVyN 1 2 1) (lit [(0, 0)] (poke 0x300 [0x40] (State.reset.setIndex 0x300)))).v[15] = 0 ∧
    (done (.drwVxVyN 1 2 1) (lit [(0, 0)] (poke 0x300 [0xC0] (State.reset.setIndex 0x300)))).v[15] = 1 := by decide
/-- `DrawingTwiceRestoresTheDisplay` (T-DRW-3, T-DRW-4). -/
theorem witness_draw_twice : (1 : Reg) ≠ 15 ∧ (2 : Reg) ≠ 15 ∧
    InReach (indexed 0xFFF).cfg (indexed 0xFFF).index (1 : Nibble).toNat :=
  ⟨by decide, by decide, .inr (by decide)⟩

/-! Witnesses: keypad and timers. -/

/-- `KeySkipsTestTheKeyLevel`: the last key index, down and up, and the first one too large. -/
theorem witness_keys : (press 15 (regs [(5, 15)] State.reset)).key[15] = true ∧
    (regs [(5, 15)] State.reset).v[5].toNat < 16 ∧ (regs [(5, 15)] State.reset).key[15] = false ∧
    15 < (regs [(5, 16)] State.reset).v[5].toNat := by decide
/-- `KeyWaitStoresTheLowestKeyDown`: no key, the first and the last key (T-KEY-9, T-KEY-10). -/
theorem witness_key_wait : (∀ k : Fin 16, State.reset.key[k.val] = false) ∧
    (press 0 State.reset).key[(0 : Fin 16).val] = true ∧
    ((press 15 State.reset).key[(15 : Fin 16).val] = true ∧
      ∀ j : Fin 16, j < 15 → (press 15 State.reset).key[j.val] = false) := by decide
/-- `KeyWaitTickChangesOnlyTheTimers`. -/
theorem witness_wait_tick : (word 0xF30A).halted = false ∧ (word 0xF30A).pc < 2 ^ (word 0xF30A).cfg.pcBits ∧
    InReach (word 0xF30A).cfg (word 0xF30A).pc 2 ∧
    decode (fetchedWord (word 0xF30A)) = .ok (.ldVxK 3) ∧ (∀ k : Fin 16, (word 0xF30A).key[k.val] = false) :=
  ⟨by decide, by decide, .inr (by decide), by decide, by decide⟩
/-- `DelayReadGivesTheUpdatedValue`, second clause. -/
theorem witness_read_delay : (word 0xF407).halted = false ∧ InReach (word 0xF407).cfg (word 0xF407).pc 2 ∧
    decode (fetchedWord (word 0xF407)) = .ok (.ldVxDt 4) :=
  ⟨by decide, .inr (by decide), by decide⟩

/-! Witnesses: rules about every instruction. -/

/-- `EachPieceOfStateHasItsWriters`: each piece is changed by one of its writers. -/
theorem witness_writers :
    (done (.ldBVx 0) (regs [(0, 255)] (State.reset.setIndex 0x300))).byteAt 0x300 ≠ State.reset.byteAt 0x300 ∧
    (done (.ldFVx 0) State.reset).index ≠ State.reset.index ∧ (done (.callNnn 0x300) State.reset).sp ≠ State.reset.sp ∧
    (done .cls (lit [(1, 1)] State.reset)).disp ≠ (lit [(1, 1)] State.reset).disp ∧
    (done (.ldDtVx 0) (regs [(0, 1)] State.reset)).dt ≠ State.reset.dt ∧
    (done (.ldStVx 0) (regs [(0, 1)] State.reset)).st ≠ State.reset.st := by decide
/-- `OnlyControlInstructionsChangePc`: a taken skip, a wait, a jump. -/
theorem witness_pc : (done (.seVxVy 0 1) State.reset).pc ≠ State.reset.pc ∧
    (done (.ldVxK 0) State.reset).pc ≠ State.reset.pc ∧ (done (.jpNnn 0) State.reset).pc ≠ State.reset.pc := by decide
/-- `OnlySixInstructionsWriteTheFlagUnasked`: by name, by an addition, by a draw. -/
theorem witness_flag : (done (.ldVxNn 15 7) State.reset).v[15] ≠ State.reset.v[15] ∧
    (done (.addVxVy 3 3) (regs [(3, 0x80)] State.reset)).v[15] ≠ State.reset.v[15] ∧
    (done (.drwVxVyN 0 0 0) (regs [(15, 1)] State.reset)).v[15] ≠ (regs [(15, 1)] State.reset).v[15] := by decide
/-- `NoInstructionReadsTheHiddenTimers`, `DisplayAndKeysHaveTheirReaders`: an instruction all their clauses speak of. -/
theorem witness_readers : ∃ t, exec (.ldVxDt 3) State.reset = .next t ∧ (∀ x, Instr.ldVxDt 3 ≠ .ldStVx x) ∧
    (∀ x, Instr.ldVxDt 3 ≠ .ldDtVx x) ∧ Instr.ldVxDt 3 ≠ .cls ∧ (∀ x y n, Instr.ldVxDt 3 ≠ .drwVxVyN x y n) ∧
    (∀ x, Instr.ldVxDt 3 ≠ .skpVx x) ∧ (∀ x, Instr.ldVxDt 3 ≠ .sknpVx x) ∧ ∀ x, Instr.ldVxDt 3 ≠ .ldVxK x :=
  ⟨_, rfl, nofun, nofun, nofun, nofun, nofun, nofun, nofun⟩

/-! Witnesses: the invariant and the host interface. -/

/-- `StepKeepsTheInvariant`, `HostOperationsKeepTheInvariant`: the reset state is legal, and its step answers. -/
theorem witness_legal : Legal State.reset ∧ ∃ t, step State.reset = .next t :=
  ⟨⟨by decide, rfl, rfl, by decide, by decide, by decide, fun _ _ h => absurd h (Nat.not_lt_zero _), by decide,
    fun _ _ _ h => absurd h (Nat.not_lt_zero _), .inl rfl, .inl rfl, rfl⟩, _, rfl⟩
/-- `LoadPlacesTheImage`: the longest image that fits and the shortest that does not (T-HOST-2, T-HOST-3). -/
theorem witness_load : (List.replicate 3584 (0 : Byte)).length ≤ 4096 - State.reset.cfg.progStart ∧
    4096 - State.reset.cfg.progStart < (List.replicate 3585 (0 : Byte)).length := by
  rw [List.length_replicate, List.length_replicate]
  decide
/-- `KeySetSetsOneKey`: the last key and the first index too large. -/
theorem witness_key_set : 15 < 16 ∧ 16 ≤ 16 ∧
    Machine.move (.keySet 16 true) State.reset = .refused (.keyIndexOutOfRange 16) := ⟨by decide, by decide, rfl⟩
/-- `RenderFillsTheBufferRowMajor`, `ResetLeavesTheListedValues`: the last column and row, the last font byte, and the
addresses beside the font. -/
theorem witness_ranges : 63 < 64 ∧ 31 < 32 ∧ 79 < Config.default.fontData.length ∧ 0x04F < Config.default.fontBase ∧
    Config.default.fontBase + 80 ≤ 0x0A0 ∧ (79 : Fin 80).val + Config.default.fontBase = 0x09F := by decide

end Sys2Proof.Tests
end

section
/-!
PROOFS, family 00_scope. One whole tick (spec/00_scope.md R3): what it comes down to in and out of reach of the fetch,
and what becomes of the state around the core: the timers, the keys and the tick's inputs.
-/

namespace Sys2Proof.Safety

open Sys2Proof.Machine

/-! What a tick comes down to. -/

/-- The policy and `pc` decide whether the fetch is in reach (spec/20_memory.md R35). -/
theorem inReach_or_outOfReach (c : Config) (a n : Nat) : InReach c a (n + 1) ∨ OutOfReach c a (n + 1) := by
  unfold InReach OutOfReach
  cases c.addrPolicy with
  | wrap => exact .inl (.inl rfl)
  | fault => exact (Nat.lt_or_ge 4096 (a + (n + 1))).symm.imp .inr fun h => ⟨rfl, Nat.succ_pos n, h⟩

/-- A running core whose fetch is in reach executes the word it fetched. -/
theorem tick_inReach {s : State} (dt : Nat) (rnd : Byte) (hrun : s.halted = false) (h : InReach s.cfg s.pc 2) :
    tick dt rnd s = execute (fetchedWord s) (afterFetch dt rnd s) := by
  have hfetch : fetch (beginTick dt rnd s) = .ok (fetchedWord s, afterFetch dt rnd s) :=
    fetch_reach (h.imp_right fun h => show s.pc ≤ 4094 by omega)
  simp [tick, hrun, hfetch]

/-- A running core whose fetch is out of reach takes the address fault with the timers updated (R51). -/
theorem tick_outOfReach {s : State} (dt : Nat) (rnd : Byte) (hrun : s.halted = false)
    (h : OutOfReach s.cfg s.pc 2) :
    tick dt rnd s = .next (raise (.addressFault (max s.pc 4096) .fetch) (beginTick dt rnd s)) := by
  obtain ⟨hpolicy, -, hpc⟩ := h
  have hfetch : fetch (beginTick dt rnd s) = .error (.addressFault (max s.pc 4096) .fetch) :=
    fetch_fault hpolicy (show 4095 ≤ s.pc by omega)
  simp [tick, hrun, hfetch]

/-- A word that decodes is executed as its instruction (R55). -/
theorem execute_of_decode_ok {w : Word} {i : Instr} (h : decode w = .ok i) (s : State) : execute w s = exec i s := by
  simp only [execute, h]

/-- A word that does not decode is a fault (R57). -/
theorem execute_of_decode_error {w : Word} {g : IllegalWord} (h : decode w = .error g) (s : State) :
    execute w s = .next (raise (.illegalInstruction w s.pcBack) s) := by
  simp only [execute, h, orRaise_error]

/-- A running core whose two bytes are in reach and decode runs the instruction they decode to (R3). -/
theorem tick_of_decode_ok {s : State} {i : Instr} (dt : Nat) (rnd : Byte) (hrun : s.halted = false)
    (hreach : InReach s.cfg s.pc 2) (hi : decode (fetchedWord s) = .ok i) :
    tick dt rnd s = exec i (afterFetch dt rnd s) := by
  rw [tick_inReach dt rnd hrun hreach, execute_of_decode_ok hi]

/-- Everything a tick of a running core can be: the fetch faults, the word is illegal, or an instruction runs. -/
theorem tick_cases {s : State} (dt : Nat) (rnd : Byte) (hrun : s.halted = false) :
    (OutOfReach s.cfg s.pc 2 ∧
      tick dt rnd s = .next (raise (.addressFault (max s.pc 4096) .fetch) (beginTick dt rnd s))) ∨
    (InReach s.cfg s.pc 2 ∧ ∃ g, decode (fetchedWord s) = .error g ∧
      tick dt rnd s = .next (raise (.illegalInstruction (fetchedWord s) (afterFetch dt rnd s).pcBack)
        (afterFetch dt rnd s))) ∨
    (InReach s.cfg s.pc 2 ∧ ∃ i, decode (fetchedWord s) = .ok i ∧ tick dt rnd s = exec i (afterFetch dt rnd s)) := by
  rcases inReach_or_outOfReach s.cfg s.pc 1 with hin | hout
  · cases hdec : decode (fetchedWord s) with
    | error g => exact .inr (.inl ⟨hin, g, rfl, by rw [tick_inReach dt rnd hrun hin, execute_of_decode_error hdec]⟩)
    | ok i => exact .inr (.inr ⟨hin, i, rfl, tick_of_decode_ok dt rnd hrun hin hdec⟩)
  · exact .inl ⟨hout, tick_outOfReach dt rnd hrun hout⟩

/-- The frame of a register write. -/
theorem unchanged_setV (s : State) (x : Reg) (b : Byte) : Unchanged { regs := fun r => r = x } s (s.setV x b) where
  regs r hr := by rw [State.setV_v_get, if_neg hr]
  pc _ := rfl
  index _ := rfl
  stack _ := ⟨rfl, rfl⟩
  mem _ _ := rfl
  disp _ := rfl
  dt _ := rfl
  st _ := rfl
  key := rfl
  cfg := rfl
  rnd := rfl
  ticks := rfl
  halted := rfl
  fault := rfl

/-! The state around the core: only the two timer sets write any of it. -/

/-- The parts of a state that no instruction writes but `LD DT` and `LD ST` (spec/10_state.md R19, R20): the timers, the
keys, and the model's own fields. -/
structure Surroundings where
  dt : Timer
  st : Timer
  key : Vector Bool 16
  cfg : Config
  rnd : Byte
  ticks : Nat

/-- The surroundings of a state. -/
def surroundings (s : State) : Surroundings := ⟨s.dt, s.st, s.key, s.cfg, s.rnd, s.ticks⟩

/-- The fetch itself leaves the surroundings as the start of the tick left them. -/
theorem surroundings_afterFetch (dt : Nat) (rnd : Byte) (s : State) :
    surroundings (afterFetch dt rnd s) = surroundings (beginTick dt rnd s) := rfl

/-- Loading registers leaves the surroundings alone. -/
theorem surroundings_setVs (s : State) (n : Nat) (bs : List Byte) :
    surroundings (s.setVs n bs) = surroundings s := by
  rw [State.setVs_frame]
  rfl

/-- Stores leave the surroundings alone. -/
theorem surroundings_writeBytes {s t : State} {a : Nat} {bs : List Byte} (h : writeBytes s a bs = .ok t) :
    surroundings t = surroundings s := by
  rw [(writeBytes_ok h).1]
  rfl

/-- A skip leaves the surroundings alone. -/
theorem surroundings_skipIf {s t : State} {c : Bool} (h : skipIf c s = .ok t) :
    surroundings t = surroundings s := by
  obtain ⟨-, hs⟩ | ⟨-, -, hs⟩ | ⟨-, -, -, hs⟩ := skipIf_cases c s <;> rw [hs] at h <;> cases h <;> rfl

/-- An instruction leaves the surroundings alone if its result does: a fault only adds its record. -/
theorem surroundings_orRaise {s t : State} {r : Except Fault State} (h : orRaise s r = .next t)
    (hr : ∀ u, r = .ok u → surroundings u = surroundings s) : surroundings t = surroundings s := by
  obtain hok | ⟨f, -, rfl⟩ := orRaise_cases h
  · exact hr t hok
  · rfl

/-- RET pops, or takes the underflow. -/
theorem surroundings_execRet {s t : State} (h : execRet s = .next t) : surroundings t = surroundings s := by
  unfold execRet at h
  obtain ⟨-, hp⟩ | ⟨n, -, hp⟩ := pop_cases s <;> rw [hp] at h <;> cases h <;> rfl

/-- CALL pushes, or takes the overflow. -/
theorem surroundings_execCallNnn {s t : State} {nnn : BitVec 12} (h : execCallNnn nnn s = .next t) :
    surroundings t = surroundings s := by
  unfold execCallNnn at h
  obtain ⟨-, hp⟩ | ⟨-, hp⟩ := push_cases s s.pc <;> rw [hp] at h <;> cases h <;> rfl

/-- DRW reads its rows, or takes the address fault. -/
theorem surroundings_execDrwVxVyN {s t : State} {x y : Reg} {n : Nibble} (h : execDrwVxVyN x y n s = .next t) :
    surroundings t = surroundings s := by
  unfold execDrwVxVyN at h
  obtain hp | ⟨hp, -⟩ := readBytes_cases s (indexBase s) n.toNat <;> rw [hp] at h <;> cases h <;> rfl

/-- LD Vx, [I] reads its bytes, or takes the address fault. -/
theorem surroundings_execLdVxMem {s t : State} {x : Reg} (h : execLdVxMem x s = .next t) :
    surroundings t = surroundings s := by
  unfold execLdVxMem at h
  obtain hp | ⟨hp, -⟩ := readBytes_cases s (indexBase s) (x.val + 1) <;> rw [hp] at h <;> cases h
  · exact surroundings_setVs ..
  · rfl

/-- The key wait goes back, or writes a register. -/
theorem surroundings_execLdVxK {s t : State} {x : Reg} (h : execLdVxK x s = .next t) :
    surroundings t = surroundings s := by
  unfold execLdVxK at h
  split at h <;> cases h <;> rfl

/-- No instruction but the two timer sets changes the surroundings. -/
theorem surroundings_exec {i : Instr} {s t : State} (hdt : ∀ x, i ≠ .ldDtVx x) (hst : ∀ x, i ≠ .ldStVx x)
    (h : exec i s = .next t) : surroundings t = surroundings s := by
  cases i with
  | ldDtVx x => exact absurd rfl (hdt x)
  | ldStVx x => exact absurd rfl (hst x)
  | ret => exact surroundings_execRet h
  | callNnn nnn => exact surroundings_execCallNnn h
  | seVxNn | sneVxNn | seVxVy | sneVxVy => exact surroundings_orRaise h fun _ => surroundings_skipIf
  | drwVxVyN x y n => exact surroundings_execDrwVxVyN h
  | skpVx | sknpVx =>
    simp only [exec, execSkpVx, execSknpVx] at h
    split at h
    · exact surroundings_orRaise h nofun
    · exact surroundings_orRaise h fun _ => surroundings_skipIf
  | ldVxK x => exact surroundings_execLdVxK h
  | ldBVx | ldMemVx => exact surroundings_orRaise h fun _ => surroundings_writeBytes
  | ldVxMem x => exact surroundings_execLdVxMem h
  | _ => cases h; rfl

/-- The surroundings after a tick: as updated at its start, but for a timer that its instruction sets. -/
theorem surroundings_tick {s t : State} {dt : Nat} {rnd : Byte} (hrun : s.halted = false)
    (h : tick dt rnd s = .next t) :
    surroundings t = surroundings (beginTick dt rnd s) ∨
    (∃ x, decode (fetchedWord s) = .ok (.ldDtVx x) ∧
      surroundings t = { surroundings (beginTick dt rnd s) with dt := timerSet s.v[x.val] }) ∨
    ∃ x, decode (fetchedWord s) = .ok (.ldStVx x) ∧
      surroundings t = { surroundings (beginTick dt rnd s) with st := timerSet s.v[x.val] } := by
  obtain ⟨-, ht⟩ | ⟨-, g, -, ht⟩ | ⟨-, i, hi, ht⟩ := tick_cases dt rnd hrun <;> rw [ht] at h
  · cases h; exact .inl rfl
  · cases h; exact .inl rfl
  · by_cases hdt : ∃ x, i = .ldDtVx x
    · obtain ⟨x, rfl⟩ := hdt
      cases h; exact .inr (.inl ⟨x, hi, rfl⟩)
    · by_cases hst : ∃ x, i = .ldStVx x
      · obtain ⟨x, rfl⟩ := hst
        cases h; exact .inr (.inr ⟨x, hi, rfl⟩)
      · have hkept := surroundings_exec (not_exists.1 hdt) (not_exists.1 hst) h
        exact .inl (hkept.trans (surroundings_afterFetch dt rnd s))

end Sys2Proof.Safety

namespace Sys2Proof.Proofs

open Sys2Proof.Machine Sys2Proof.Safety

/-- Settles O7: a fetch in reach, then the arm of the word it read. -/
theorem stepRunsTheDecodedInstruction : Obligations.StepRunsTheDecodedInstruction :=
  fun _ _ hrun hreach hi => ⟨fun dt rnd => tick_of_decode_ok dt rnd hrun hreach hi, tick_of_decode_ok _ _ hrun hreach hi⟩

/-- Settles O46: one register write; in a tick it reads the timer that the start of the tick updated. -/
theorem delayReadGivesTheUpdatedValue : Obligations.DelayReadGivesTheUpdatedValue := by
  intro x s
  have hread : ∀ u : State, (u.setV x u.dt.val).v[x.val] = u.dt.val := fun u => by rw [State.setV_v_get, if_pos rfl]
  refine ⟨⟨s.setV x s.dt.val, rfl, hread s, unchanged_setV s x _⟩, fun dt rnd hrun hreach hi => ?_⟩
  exact ⟨_, tick_of_decode_ok dt rnd hrun hreach hi, hread (afterFetch dt rnd s)⟩

/-- Settles O14, by the three forms of the surroundings after a tick: as updated, with `DT` set, with `ST` set. -/
theorem tickUpdatesBothTimersFirst : Obligations.TickUpdatesBothTimersFirst := by
  intro s t dt rnd hrun ht
  have hcases := surroundings_tick hrun ht
  simp only [surroundings, Surroundings.mk.injEq, beginTick_dt, beginTick_st, beginTick_key, beginTick_cfg,
    beginTick_rnd, beginTick_ticks] at hcases
  obtain ⟨hdt, hst, hkey, hcfg, hrnd, hticks⟩ | ⟨x, hx, hdt, hst, hkey, hcfg, hrnd, hticks⟩ |
    ⟨x, hx, hdt, hst, hkey, hcfg, hrnd, hticks⟩ := hcases
  · exact ⟨hticks, hrnd, hkey, hcfg, .inl hdt, .inl hst⟩
  · exact ⟨hticks, hrnd, hkey, hcfg, .inr ⟨x, hx, hdt⟩, .inl hst⟩
  · exact ⟨hticks, hrnd, hkey, hcfg, .inl hdt, .inr ⟨x, hx, hst⟩⟩

end Sys2Proof.Proofs
end

section
/-!
PROOFS, family 20_memory. One byte write (spec/20_memory.md R32, R34), as a later access sees it.
-/

namespace Sys2Proof.Safety

open Sys2Proof.Machine

/-- The bytes of a state whose memory was written once. -/
theorem byteAt_write {s : State} (hwf : Memory.wf s.cfg s.mem = true) (a : Nat) (b : Byte) (k : Nat) :
    State.byteAt { s with mem := Memory.write s.cfg s.mem a b } k = if k = a then b else s.byteAt k :=
  Memory.read_write k hwf

end Sys2Proof.Safety

namespace Sys2Proof.Proofs

open Sys2Proof.Machine Sys2Proof.Safety

/-- Settles O38: a write in reach is one write at the effective address, and the read back has the same effective
address. -/
theorem writeChangesExactlyTheAddressedByte : Obligations.WriteChangesExactlyTheAddressedByte := by
  intro s a b hwf hreach
  have hpolicy : s.cfg.addrPolicy = .wrap ∨ a ≤ 4095 := hreach.imp_right Nat.le_of_succ_le_succ
  have hsame := (byteAt_write hwf (a % 4096) b (a % 4096)).trans (if_pos rfl)
  refine ⟨_, memWrite_reach hpolicy, Memory.wf_write (Nat.mod_lt a (by decide)) hwf, hsame, fun k hk => ?_, ?_⟩
  · rw [byteAt_write hwf, if_neg hk]
  · rw [memRead_reach, hsame]
    exact hpolicy

end Sys2Proof.Proofs
end

section
/-!
PROOFS, family 30_encoding. The encoder and the decoder undo each other (spec/30_encoding.md R52 to R56), field layout by
field layout (R54); a row of the opcode table selects the words of its instruction and no others (R55).
-/

namespace Sys2Proof

/-! Decoding what the encoder lays out. -/

/-- The decoder takes the word of four nibbles apart into them (R52). -/
theorem decode_wordOfNibbles (n3 n2 n1 n0 : Nibble) :
    decode (wordOfNibbles n3 n2 n1 n0) = decodeNibbles n3 n2 n1 n0 := by
  simp only [decode, nibble3_wordOfNibbles, nibble2_wordOfNibbles, nibble1_wordOfNibbles, nibble0_wordOfNibbles]

/-- `8xy_`: the low nibble is the function (R56). -/
theorem decode_encodeXyn_alu (x y : Reg) (n : Nibble) : decode (encodeXyn 0x8 x y n) = decodeAlu x y n :=
  decode_wordOfNibbles ..

/-- `Ex__`: the low byte is the tag (R56). -/
theorem decode_encodeXnn_keys (x : Reg) (kk : Byte) :
    decode (encodeXnn 0xE x kk) = decodeKeys x (kk.extractLsb' 4 4) (kk.extractLsb' 0 4) :=
  decode_wordOfNibbles ..

/-- `Fx__`: the low byte is the tag (R56). -/
theorem decode_encodeXnn_misc (x : Reg) (kk : Byte) : decode (encodeXnn 0xF x kk) = decodeMisc x kk :=
  (decode_wordOfNibbles ..).trans (congrArg (decodeMisc x) (byte_of_nibbles kk))

/-- The decoder undoes the encoder: by the instruction's field layout. -/
theorem decode_encode (i : Instr) : decode (encode i) = .ok i := by
  cases i with
  | cls | ret => rfl
  | jpNnn | callNnn | ldINnn => simp [encode, encodeNnn, decode_wordOfNibbles, decodeNibbles]
  | seVxNn | sneVxNn | ldVxNn | addVxNn | rndVxNn => simp [encode, encodeXnn, decode_wordOfNibbles, decodeNibbles]
  | seVxVy | sneVxVy | drwVxVyN => simp [encode, encodeXyn, decode_wordOfNibbles, decodeNibbles]
  | ldVxVy | orVxVy | andVxVy | xorVxVy | addVxVy | subVxVy | shrVx | subnVxVy | shlVx =>
    exact decode_encodeXyn_alu ..
  | skpVx | sknpVx => exact decode_encodeXnn_keys ..
  | ldVxK | ldVxDt | ldDtVx | ldStVx | addIVx | ldFVx | ldBVx | ldMemVx | ldVxMem => exact decode_encodeXnn_misc ..

/-! Encoding what the decoder accepts. -/

/-- Format NNN on the literal of three nibbles (R53, R54). -/
theorem encodeNnn_append (op a b c : Nibble) : encodeNnn op (a ++ b ++ c) = wordOfNibbles op a b c := by
  have hhigh : (a ++ b ++ c).extractLsb' 8 4 = a :=
    (BitVec.extractLsb'_append_eq_of_le (by decide)).trans BitVec.extractLsb'_append_eq_left
  have hmid : (a ++ b ++ c).extractLsb' 4 4 = b :=
    (BitVec.extractLsb'_append_eq_of_le (by decide)).trans BitVec.extractLsb'_append_eq_right
  have hlow : (a ++ b ++ c).extractLsb' 0 4 = c := BitVec.extractLsb'_append_eq_right
  rw [encodeNnn, hhigh, hmid, hlow]

/-- Formats XNN and X on the byte of two nibbles (R53, R54). -/
theorem encodeXnn_append (op a b c : Nibble) :
    encodeXnn op (regOfNibble a) (b ++ c) = wordOfNibbles op a b c := by
  have hhigh : (b ++ c).extractLsb' 4 4 = b := BitVec.extractLsb'_append_eq_left
  have hlow : (b ++ c).extractLsb' 0 4 = c := BitVec.extractLsb'_append_eq_right
  rw [encodeXnn, nibbleOfReg_regOfNibble, hhigh, hlow]

/-- Formats XY and XYN on the registers two nibbles name (R53, R54). -/
theorem encodeXyn_regOfNibble (op a b c : Nibble) :
    encodeXyn op (regOfNibble a) (regOfNibble b) c = wordOfNibbles op a b c := rfl

/-- A guarded arm of the decoder accepts exactly under its guard. -/
theorem ite_ok_error_eq_ok {p : Prop} [Decidable p] {i j : Instr} {g : IllegalWord} :
    (if p then Except.ok j else Except.error g) = Except.ok i ↔ p ∧ j = i := by
  by_cases hp : p <;> simp [hp]

/-- The words `0___` that decode. -/
theorem encode_of_decodeZero {n2 n1 n0 : Nibble} {i : Instr} (h : decodeZero n2 n1 n0 = .ok i) :
    encode i = wordOfNibbles 0x0 n2 n1 n0 := by
  unfold decodeZero at h
  split at h
  · next hcls =>
    obtain ⟨rfl, rfl, rfl⟩ := hcls
    cases h; rfl
  · obtain ⟨⟨rfl, rfl, rfl⟩, rfl⟩ := ite_ok_error_eq_ok.1 h
    rfl

/-- The words `8xy_` that decode: each arm names its function nibble. -/
theorem encode_of_decodeAlu {x y : Reg} {n : Nibble} {i : Instr} (h : decodeAlu x y n = .ok i) :
    encode i = encodeXyn 0x8 x y n := by
  unfold decodeAlu at h
  split at h <;> cases h <;> rfl

/-- The words `Ex__` that decode. -/
theorem encode_of_decodeKeys {n2 n1 n0 : Nibble} {i : Instr} (h : decodeKeys (regOfNibble n2) n1 n0 = .ok i) :
    encode i = wordOfNibbles 0xE n2 n1 n0 := by
  unfold decodeKeys at h
  split at h
  · next hskp =>
    obtain ⟨rfl, rfl⟩ := hskp
    cases h; rfl
  · obtain ⟨⟨rfl, rfl⟩, rfl⟩ := ite_ok_error_eq_ok.1 h
    rfl

/-- The words `Fx__` that decode: each arm names its low byte. -/
theorem encode_of_decodeMisc {x : Reg} {kk : Byte} {i : Instr} (h : decodeMisc x kk = .ok i) :
    encode i = encodeXnn 0xF x kk := by
  unfold decodeMisc at h
  split at h <;> cases h <;> rfl

/-- Four nibbles that decode are the nibbles of the instruction's word: by the arms of the first nibble, 0 to F. -/
theorem encode_of_decodeNibbles {n3 n2 n1 n0 : Nibble} {i : Instr} (h : decodeNibbles n3 n2 n1 n0 = .ok i) :
    encode i = wordOfNibbles n3 n2 n1 n0 := by
  unfold decodeNibbles at h
  split at h
  · exact encode_of_decodeZero h
  · cases h; exact encodeNnn_append ..
  · cases h; exact encodeNnn_append ..
  · cases h; exact encodeXnn_append ..
  · cases h; exact encodeXnn_append ..
  · obtain ⟨rfl, rfl⟩ := ite_ok_error_eq_ok.1 h; rfl
  · cases h; exact encodeXnn_append ..
  · cases h; exact encodeXnn_append ..
  · exact encode_of_decodeAlu h
  · obtain ⟨rfl, rfl⟩ := ite_ok_error_eq_ok.1 h; rfl
  · cases h; exact encodeNnn_append ..
  · cases h
  · cases h; exact encodeXnn_append ..
  · cases h; rfl
  · exact encode_of_decodeKeys h
  · obtain rfl : n3 = 0xF := by clear h; revert n3; decide
    exact (encode_of_decodeMisc h).trans (encodeXnn_append ..)

/-- The encoder undoes the decoder. -/
theorem encode_of_decode {w : Word} {i : Instr} (h : decode w = .ok i) : encode i = w :=
  (encode_of_decodeNibbles h).trans (wordOfNibbles_nibbles w)

/-! What a row of the opcode table selects. -/

/-- A mask nibble of ones keeps the nibble. -/
theorem nibble_and_ones (n : Nibble) : n &&& 15#4 = n := BitVec.and_allOnes

/-- Masking goes nibble by nibble. -/
theorem and_eq_wordOfNibbles (v w : Word) :
    v &&& w = wordOfNibbles (nibble3 v &&& nibble3 w) (nibble2 v &&& nibble2 w) (nibble1 v &&& nibble1 w)
      (nibble0 v &&& nibble0 w) := by
  rw [← wordOfNibbles_nibbles (v &&& w)]
  simp only [nibble3, nibble2, nibble1, nibble0, BitVec.extractLsb'_and]

/-- Words are equal nibble by nibble. -/
theorem wordOfNibbles_inj {a b c d e f g h : Nibble} :
    wordOfNibbles a b c d = wordOfNibbles e f g h ↔ a = e ∧ b = f ∧ c = g ∧ d = h := by
  refine ⟨fun heq => ?_, fun ⟨ha, hb, hc, hd⟩ => by rw [ha, hb, hc, hd]⟩
  exact ⟨by simpa using congrArg nibble3 heq, by simpa using congrArg nibble2 heq,
    by simpa using congrArg nibble1 heq, by simpa using congrArg nibble0 heq⟩

/-- Format FIX: every nibble is a tag. -/
theorem selects_fix {p w : Word} : OpcodeRow.selects ⟨0xFFFF, p⟩ w = true ↔ w = p := by
  have hmask : w &&& 0xFFFF = w := BitVec.and_allOnes
  simp only [OpcodeRow.selects, hmask, beq_iff_eq]

/-- Formats NNN, XNN and XYN: the first nibble is the one tag. -/
theorem selects_tag {op : Nibble} {p w : Word} (hp : p = wordOfNibbles op 0 0 0) :
    OpcodeRow.selects ⟨0xF000, p⟩ w = true ↔ nibble3 w = op := by
  have hmask : (0xF000 : Word) = wordOfNibbles 0xF 0 0 0 := rfl
  simp [OpcodeRow.selects, hp, hmask, and_eq_wordOfNibbles, wordOfNibbles_inj, nibble_and_ones]

/-- Format XY: tags in the first and in the last nibble. -/
theorem selects_tag_function {op k : Nibble} {p w : Word} (hp : p = wordOfNibbles op 0 0 k) :
    OpcodeRow.selects ⟨0xF00F, p⟩ w = true ↔ nibble3 w = op ∧ nibble0 w = k := by
  have hmask : (0xF00F : Word) = wordOfNibbles 0xF 0 0 0xF := rfl
  simp [OpcodeRow.selects, hp, hmask, and_eq_wordOfNibbles, wordOfNibbles_inj, nibble_and_ones]

/-- Format X: tags in the first nibble and in the low byte. -/
theorem selects_tag_low {op j k : Nibble} {p w : Word} (hp : p = wordOfNibbles op 0 j k) :
    OpcodeRow.selects ⟨0xF0FF, p⟩ w = true ↔ nibble3 w = op ∧ nibble1 w = j ∧ nibble0 w = k := by
  have hmask : (0xF0FF : Word) = wordOfNibbles 0xF 0 0xF 0xF := rfl
  simp [OpcodeRow.selects, hp, hmask, and_eq_wordOfNibbles, wordOfNibbles_inj, nibble_and_ones]

/-! The row of an instruction selects its word. -/

/-- Every instruction's row stands in the table. -/
theorem Instr.row_mem (i : Instr) : i.row ∈ opcodeTable := by
  cases i <;> simp [Instr.row, opcodeTable]

/-- An instruction's word carries the tags of its row: by the row's mask. -/
theorem Instr.row_selects_encode (i : Instr) : i.row.selects (encode i) = true := by
  cases i with
  | cls | ret => exact selects_fix.2 rfl
  | jpNnn | callNnn | ldINnn | seVxNn | sneVxNn | ldVxNn | addVxNn | rndVxNn | drwVxVyN =>
    refine (selects_tag ?_).2 (nibble3_wordOfNibbles ..); rfl
  | seVxVy | sneVxVy | ldVxVy | orVxVy | andVxVy | xorVxVy | addVxVy | subVxVy | shrVx | subnVxVy | shlVx =>
    refine (selects_tag_function ?_).2 ⟨nibble3_wordOfNibbles .., nibble0_wordOfNibbles ..⟩; rfl
  | skpVx | sknpVx | ldVxK | ldVxDt | ldDtVx | ldStVx | addIVx | ldFVx | ldBVx | ldMemVx | ldVxMem =>
    refine (selects_tag_low ?_).2 ⟨nibble3_wordOfNibbles .., nibble1_wordOfNibbles .., nibble0_wordOfNibbles ..⟩; rfl

/-! A word that a row selects is the word of an instruction of that row, its operands the fields of R53. -/

/-- Format NNN. -/
theorem encodeNnn_of_selects {op : Nibble} {p w : Word} (h : OpcodeRow.selects ⟨0xF000, p⟩ w = true)
    (hp : p = wordOfNibbles op 0 0 0) : encodeNnn op (nibble2 w ++ nibble1 w ++ nibble0 w) = w := by
  rw [encodeNnn_append, ← (selects_tag hp).1 h, wordOfNibbles_nibbles]

/-- Format XNN. -/
theorem encodeXnn_of_selects {op : Nibble} {p w : Word} (h : OpcodeRow.selects ⟨0xF000, p⟩ w = true)
    (hp : p = wordOfNibbles op 0 0 0) : encodeXnn op (regOfNibble (nibble2 w)) (nibble1 w ++ nibble0 w) = w := by
  rw [encodeXnn_append, ← (selects_tag hp).1 h, wordOfNibbles_nibbles]

/-- Format XYN. -/
theorem encodeXyn_of_selects {op : Nibble} {p w : Word} (h : OpcodeRow.selects ⟨0xF000, p⟩ w = true)
    (hp : p = wordOfNibbles op 0 0 0) :
    encodeXyn op (regOfNibble (nibble2 w)) (regOfNibble (nibble1 w)) (nibble0 w) = w := by
  rw [encodeXyn_regOfNibble, ← (selects_tag hp).1 h, wordOfNibbles_nibbles]

/-- Format XY. -/
theorem encodeXy_of_selects {op k : Nibble} {p w : Word} (h : OpcodeRow.selects ⟨0xF00F, p⟩ w = true)
    (hp : p = wordOfNibbles op 0 0 k) : encodeXyn op (regOfNibble (nibble2 w)) (regOfNibble (nibble1 w)) k = w := by
  obtain ⟨hop, hk⟩ := (selects_tag_function hp).1 h
  rw [encodeXyn_regOfNibble, ← hop, ← hk, wordOfNibbles_nibbles]

/-- Format X. -/
theorem encodeX_of_selects {op : Nibble} {kk : Byte} {p w : Word} (h : OpcodeRow.selects ⟨0xF0FF, p⟩ w = true)
    (hp : p = wordOfNibbles op 0 (kk.extractLsb' 4 4) (kk.extractLsb' 0 4)) :
    encodeXnn op (regOfNibble (nibble2 w)) kk = w := by
  obtain ⟨hop, hhigh, hlow⟩ := (selects_tag_low hp).1 h
  rw [encodeXnn, nibbleOfReg_regOfNibble, ← hop, ← hhigh, ← hlow, wordOfNibbles_nibbles]

/-- By the rows of R56, in the table's order. -/
theorem exists_instr_of_selects {r : OpcodeRow} {w : Word} (hr : r ∈ opcodeTable) (h : r.selects w = true) :
    ∃ i : Instr, i.row = r ∧ encode i = w := by
  revert r
  simp only [opcodeTable, List.cons_append, List.nil_append, List.forall_mem_cons, List.not_mem_nil,
    false_imp_iff, implies_true, and_true]
  exact ⟨
    fun h => ⟨.cls, rfl, (selects_fix.1 h).symm⟩,
    fun h => ⟨.ret, rfl, (selects_fix.1 h).symm⟩,
    fun h => ⟨.jpNnn _, rfl, encodeNnn_of_selects h rfl⟩,
    fun h => ⟨.callNnn _, rfl, encodeNnn_of_selects h rfl⟩,
    fun h => ⟨.seVxNn _ _, rfl, encodeXnn_of_selects h rfl⟩,
    fun h => ⟨.sneVxNn _ _, rfl, encodeXnn_of_selects h rfl⟩,
    fun h => ⟨.seVxVy _ _, rfl, encodeXy_of_selects h rfl⟩,
    fun h => ⟨.sneVxVy _ _, rfl, encodeXy_of_selects h rfl⟩,
    fun h => ⟨.ldVxNn _ _, rfl, encodeXnn_of_selects h rfl⟩,
    fun h => ⟨.addVxNn _ _, rfl, encodeXnn_of_selects h rfl⟩,
    fun h => ⟨.ldVxVy _ _, rfl, encodeXy_of_selects h rfl⟩,
    fun h => ⟨.orVxVy _ _, rfl, encodeXy_of_selects h rfl⟩,
    fun h => ⟨.andVxVy _ _, rfl, encodeXy_of_selects h rfl⟩,
    fun h => ⟨.xorVxVy _ _, rfl, encodeXy_of_selects h rfl⟩,
    fun h => ⟨.addVxVy _ _, rfl, encodeXy_of_selects h rfl⟩,
    fun h => ⟨.subVxVy _ _, rfl, encodeXy_of_selects h rfl⟩,
    fun h => ⟨.shrVx _ _, rfl, encodeXy_of_selects h rfl⟩,
    fun h => ⟨.subnVxVy _ _, rfl, encodeXy_of_selects h rfl⟩,
    fun h => ⟨.shlVx _ _, rfl, encodeXy_of_selects h rfl⟩,
    fun h => ⟨.ldINnn _, rfl, encodeNnn_of_selects h rfl⟩,
    fun h => ⟨.rndVxNn _ _, rfl, encodeXnn_of_selects h rfl⟩,
    fun h => ⟨.drwVxVyN _ _ _, rfl, encodeXyn_of_selects h rfl⟩,
    fun h => ⟨.skpVx _, rfl, encodeX_of_selects h rfl⟩,
    fun h => ⟨.sknpVx _, rfl, encodeX_of_selects h rfl⟩,
    fun h => ⟨.ldVxK _, rfl, encodeX_of_selects h rfl⟩,
    fun h => ⟨.ldVxDt _, rfl, encodeX_of_selects h rfl⟩,
    fun h => ⟨.ldDtVx _, rfl, encodeX_of_selects h rfl⟩,
    fun h => ⟨.ldStVx _, rfl, encodeX_of_selects h rfl⟩,
    fun h => ⟨.addIVx _, rfl, encodeX_of_selects h rfl⟩,
    fun h => ⟨.ldFVx _, rfl, encodeX_of_selects h rfl⟩,
    fun h => ⟨.ldBVx _, rfl, encodeX_of_selects h rfl⟩,
    fun h => ⟨.ldMemVx _, rfl, encodeX_of_selects h rfl⟩,
    fun h => ⟨.ldVxMem _, rfl, encodeX_of_selects h rfl⟩⟩

/-- A word that no row selects is illegal (R57): what it decoded to would have a row that selects it. -/
theorem decode_error_of_no_row {w : Word} (h : ∀ r ∈ opcodeTable, r.selects w = false) :
    ∃ g, decode w = .error g := by
  cases hdec : decode w with
  | error g => exact ⟨g, rfl⟩
  | ok i =>
    have hsel := i.row_selects_encode
    rw [encode_of_decode hdec, h i.row i.row_mem] at hsel
    cases hsel

end Sys2Proof

namespace Sys2Proof.Safety

open Sys2Proof.Machine

/-- After the fetch, the address gone back to is the one fetched from (spec/10_state.md R12). -/
theorem pcBack_afterFetch {s : State} (dt : Nat) (rnd : Byte) (h : s.pc < 2 ^ s.cfg.pcBits) :
    (afterFetch dt rnd s).pcBack = s.pc :=
  State.pcBack_setPc_pcNext (s := beginTick dt rnd s) h

end Sys2Proof.Safety

namespace Sys2Proof.Proofs

open Sys2Proof.Machine Sys2Proof.Safety

/-- Settles O1: the decoder undoes each field layout of the encoder. -/
theorem decodeOfEncodeIsIdentity : Obligations.DecodeOfEncodeIsIdentity := decode_encode

/-- Settles O2: each arm of the decoder keeps all four nibbles. -/
theorem encodeOfDecodedWordIsThatWord : Obligations.EncodeOfDecodedWordIsThatWord :=
  fun _ _ => encode_of_decode

/-- Settles O4: a selected word is the encoding of an instruction of its row, which it therefore decodes to; a word that
no row selects does not decode. -/
theorem executeDispatchesByPatternMatch : Obligations.ExecuteDispatchesByPatternMatch := by
  refine fun w s => ⟨fun r hr hsel => ?_, fun hnone => ?_⟩
  · obtain ⟨i, hrow, rfl⟩ := exists_instr_of_selects hr hsel
    exact ⟨i, decode_encode i, hrow, rfl, execute_of_decode_ok (decode_encode i) s⟩
  · obtain ⟨g, hg⟩ := decode_error_of_no_row hnone
    exact ⟨s.pcBack, s.pcBack_int, execute_of_decode_error hg s⟩

/-- Settles O6, by running the decoder on the nine words. -/
theorem sampleWordsDecodeAsTheTableSays : Obligations.SampleWordsDecodeAsTheTableSays := by
  unfold Obligations.SampleWordsDecodeAsTheTableSays
  decide

/-- Settles O8: a fetch in reach, then the illegal word, with the address that the fetch moved on from. -/
theorem illegalWordHaltsWithItsAddress : Obligations.IllegalWordHaltsWithItsAddress := by
  intro s g dt rnd hrun hfits hreach hg
  rw [tick_inReach dt rnd hrun hreach, execute_of_decode_error hg, pcBack_afterFetch dt rnd hfits]

end Sys2Proof.Proofs
end

section
/-!
PROOFS, family 40_control. Control transfer (spec/40_control.md R70 to R77): the jump, the return, and the skips that
compare.
-/

namespace Sys2Proof.Safety

open Sys2Proof.Machine

/-! Frames. -/

/-- The frame of a jump. -/
theorem unchanged_setPc (s : State) (a : Nat) : Unchanged { pc := True } s (s.setPc a) where
  regs _ _ := rfl
  pc h := absurd trivial h
  index _ := rfl
  stack _ := ⟨rfl, rfl⟩
  mem _ _ := rfl
  disp _ := rfl
  dt _ := rfl
  st _ := rfl
  key := rfl
  cfg := rfl
  rnd := rfl
  ticks := rfl
  halted := rfl
  fault := rfl

/-- The frame of a call or a return: the call stack changes, and then `pc`. -/
theorem unchanged_stack_setPc (s : State) (entries : List Nat) (n a : Nat) :
    Unchanged { pc := True, stack := True } s (State.setPc { s with stack := entries, sp := n } a) where
  regs _ _ := rfl
  pc h := absurd trivial h
  index _ := rfl
  stack h := absurd trivial h
  mem _ _ := rfl
  disp _ := rfl
  dt _ := rfl
  st _ := rfl
  key := rfl
  cfg := rfl
  rnd := rfl
  ticks := rfl
  halted := rfl
  fault := rfl

/-! The return. -/

/-- A pop from a stack that is not empty gives the top entry. -/
theorem pop_of_entry {s : State} {n a : Nat} (hsp : s.sp = n + 1) (hentry : s.stack[n]? = some a) :
    pop s = .ok (a, { s with sp := n }) := by
  simp only [pop, hsp, hentry, Option.getD_some]

/-- A pop from an empty stack is the underflow. -/
theorem pop_of_empty {s : State} (hsp : s.sp = 0) : pop s = .error .stackUnderflow := by
  simp only [pop, hsp]

/-- RET goes to the entry that the pop gave. -/
theorem exec_ret_of_pop_ok {s t : State} {a : Nat} (h : pop s = .ok (a, t)) : exec .ret s = .next (t.setPc a) := by
  simp only [exec, execRet, h, orRaise_ok]

/-- RET takes the fault of its pop. -/
theorem exec_ret_of_pop_error {s : State} {f : Fault} (h : pop s = .error f) :
    exec .ret s = .next (raise f s) := by
  simp only [exec, execRet, h, orRaise_error]

/-! The skips. -/

/-- The extra fetch of a skip in reach advances `pc` (R70). -/
theorem skip_inReach {s : State} (h : InReach s.cfg s.pc 2) : skip s = .ok (s.setPc s.pcNext) := by
  simp only [skip, fetch_reach (h.imp_right fun h => show s.pc ≤ 4094 by omega)]

/-- The extra fetch of a skip out of reach faults (R70). -/
theorem skip_outOfReach {s : State} (h : OutOfReach s.cfg s.pc 2) :
    skip s = .error (.addressFault (max s.pc 4096) .fetch) := by
  obtain ⟨hpolicy, -, hpc⟩ := h
  simp only [skip, fetch_fault hpolicy (show 4095 ≤ s.pc by omega)]

/-- A conditional skip whose condition is true is taken. -/
theorem takenSkip_of_true {c : Bool} (hc : c = true) (s : State) : TakenSkip s (orRaise s (skipIf c s)) := by
  subst hc
  exact ⟨fun h => congrArg (orRaise s) (skip_inReach h), fun h => congrArg (orRaise s) (skip_outOfReach h)⟩

/-- A conditional skip whose condition is false answers the same state. -/
theorem orRaise_skipIf_of_false {c : Bool} (hc : c = false) (s : State) : orRaise s (skipIf c s) = .next s := by
  subst hc
  rfl

end Sys2Proof.Safety

namespace Sys2Proof.Proofs

open Sys2Proof.Machine Sys2Proof.Safety

/-- Settles O21: each of the four is a conditional skip on an equality of bytes or on its negation. -/
theorem comparingSkipsPassOneInstruction : Obligations.ComparingSkipsPassOneInstruction :=
  fun _ _ _ s => ⟨
    fun heq => takenSkip_of_true (beq_iff_eq.2 heq) s,
    fun hne => orRaise_skipIf_of_false (beq_eq_false_iff_ne.2 hne) s,
    fun hne => takenSkip_of_true (bne_iff_ne.2 hne) s,
    fun heq => orRaise_skipIf_of_false (bne_eq_false_iff_eq.2 heq) s,
    fun heq => takenSkip_of_true (beq_iff_eq.2 heq) s,
    fun hne => orRaise_skipIf_of_false (beq_eq_false_iff_ne.2 hne) s,
    fun hne => takenSkip_of_true (bne_iff_ne.2 hne) s,
    fun heq => orRaise_skipIf_of_false (bne_eq_false_iff_eq.2 heq) s⟩

/-- Settles O17: one write of `pc`. -/
theorem jumpSetsPcToItsLiteral : Obligations.JumpSetsPcToItsLiteral :=
  fun nnn s => ⟨s.setPc nnn.toNat, rfl, rfl, unchanged_setPc s nnn.toNat⟩

/-- Settles O20: the pop gives the top entry or the underflow, and leaves the stack array as it is. -/
theorem returnPopsTheStackIntoPc : Obligations.ReturnPopsTheStackIntoPc := by
  refine fun s => ⟨fun n a hsp hentry => ?_, fun hempty => exec_ret_of_pop_error (pop_of_empty hempty)⟩
  exact ⟨_, exec_ret_of_pop_ok (pop_of_entry hsp hentry), rfl, rfl, rfl, unchanged_stack_setPc s s.stack n a⟩

end Sys2Proof.Proofs
end

section
/-!
PROOFS, family 41_load_alu. Register load, addition and subtraction (spec/41_load_alu.md R80 to R82, R86, R87, R89): what
a register write and a flag-producing write leave in the registers, and what the narrowed results are as numbers.
-/

namespace Sys2Proof.Safety

open Sys2Proof.Machine

/-! Registers after a write. -/

/-- A written register reads as the byte written (R80). -/
theorem setV_v_self (s : State) (x : Reg) (b : Byte) : (s.setV x b).v[x.val] = b := by
  rw [State.setV_v_get, if_pos rfl]

/-- The result of a flag-producing write stands in its register unless the flag overwrites it (R92). -/
theorem writeWithFlag_v_self {x : Reg} (hx : x ≠ 15) (s : State) (b g : Byte) :
    (writeWithFlag s x b g).v[x.val] = b := by
  rw [writeWithFlag_v_get, if_neg hx, if_pos rfl]

/-- `VF` holds the flag after a flag-producing write, with `x = 15` too (R92). -/
theorem writeWithFlag_v_vf (s : State) (x : Reg) (b g : Byte) : (writeWithFlag s x b g).v[15] = g :=
  (writeWithFlag_v_get s x Reg.vf b g).trans (if_pos rfl)

/-- The frame of a flag-producing write: that of a register write, with `VF` added. -/
theorem unchanged_writeWithFlag (s : State) (x : Reg) (b g : Byte) :
    Unchanged { regs := fun r => r = x ∨ r = 15 } s (writeWithFlag s x b g) :=
  { unchanged_setV s x b with
    regs := fun r hr => by
      obtain ⟨hx, hvf⟩ := not_or.1 hr
      rw [writeWithFlag_v_get, if_neg hvf, if_neg hx] }

/-! Results and flags as numbers. -/

/-- The sum is narrowed to 8 bits (R81, R86). -/
theorem addResult_toNat (a b : Byte) : (addResult a b).toNat = (a.toNat + b.toNat) % 256 :=
  BitVec.toNat_ofNat ..

/-- The difference is narrowed to 8 bits: the 256 that keeps it a natural number drops out (R87, R89). -/
theorem natCast_toNat_subResult (a b : Byte) : ((subResult a b).toNat : Int) = ((a.toNat : Int) - b.toNat) % 256 := by
  have hnat : (subResult a b).toNat = (a.toNat + 256 - b.toNat) % 256 := BitVec.toNat_ofNat ..
  have hb : b.toNat < 256 := b.isLt
  omega

/-- The carry flag as the byte the spec names (R86, R93). -/
theorem carryFlag_eq (a b : Byte) : carryFlag a b = if a.toNat + b.toNat > 255 then 1 else 0 := by
  simp only [carryFlag, flagByte, decide_eq_true_eq]

/-- The not-borrow flag as the byte the spec names (R87, R89, R93). -/
theorem notBorrowFlag_eq (a b : Byte) : notBorrowFlag a b = if a.toNat ≥ b.toNat then 1 else 0 := by
  simp only [notBorrowFlag, flagByte, decide_eq_true_eq]

/-- The writes of `a - b` into `V[x]`: the difference modulo 256, the not-borrow flag, nothing else (R87, R89). -/
theorem writeWithFlag_subResult (s : State) (x : Reg) (a b : Byte) :
    let t := writeWithFlag s x (subResult a b) (notBorrowFlag a b)
    (x ≠ 15 → (t.v[x.val].toNat : Int) = ((a.toNat : Int) - b.toNat) % 256) ∧
      t.v[15] = (if a.toNat ≥ b.toNat then 1 else 0) ∧ Unchanged { regs := fun r => r = x ∨ r = 15 } s t :=
  ⟨fun hx => by rw [writeWithFlag_v_self hx, natCast_toNat_subResult],
    (writeWithFlag_v_vf ..).trans (notBorrowFlag_eq a b), unchanged_writeWithFlag ..⟩

end Sys2Proof.Safety

namespace Sys2Proof.Proofs

open Sys2Proof.Machine Sys2Proof.Safety

/-- Settles O22: one register write. -/
theorem loadLiteralSetsRegister : Obligations.LoadLiteralSetsRegister :=
  fun x nn s => ⟨s.setV x nn, rfl, setV_v_self s x nn, unchanged_setV s x nn⟩

/-- Settles O23: one register write, of the narrowed sum. -/
theorem addLiteralWrapsWithoutFlag : Obligations.AddLiteralWrapsWithoutFlag :=
  fun x nn s => ⟨s.setV x (addResult s.v[x.val] nn), rfl, by rw [setV_v_self, addResult_toNat], unchanged_setV ..⟩

/-- Settles O24: one register write, of the other register as it was before. -/
theorem assignCopiesRegister : Obligations.AssignCopiesRegister :=
  fun x y s => ⟨s.setV x s.v[y.val], rfl, setV_v_self s x _, unchanged_setV s x _⟩

/-- Settles O26: the narrowed sum goes to `V[x]` first, the carry to `VF` second. -/
theorem addRegistersSetsCarry : Obligations.AddRegistersSetsCarry := by
  intro x y s
  refine ⟨writeWithFlag s x (addResult s.v[x.val] s.v[y.val]) (carryFlag s.v[x.val] s.v[y.val]), rfl,
    fun hx => ?_, ?_, unchanged_writeWithFlag ..⟩
  · rw [writeWithFlag_v_self hx, addResult_toNat]
  · rw [writeWithFlag_v_vf, carryFlag_eq]

/-- Settles O27: the writes of `V[x] - V[y]`. -/
theorem subtractSetsNotBorrow : Obligations.SubtractSetsNotBorrow :=
  fun x y s => ⟨_, rfl, writeWithFlag_subResult s x s.v[x.val] s.v[y.val]⟩

/-- Settles O28: the writes of `V[y] - V[x]`. -/
theorem reverseSubtractSetsNotBorrow : Obligations.ReverseSubtractSetsNotBorrow :=
  fun x y s => ⟨_, rfl, writeWithFlag_subResult s x s.v[y.val] s.v[x.val]⟩

end Sys2Proof.Proofs
end

section
/-!
PROOFS, family 42_index_memory. Index register and memory (spec/42_index_memory.md R100, R103): the frames of a write of
`I` and of a store, and what an instruction that ends in a store from `I` on answers in and out of reach.
-/

namespace Sys2Proof.Safety

open Sys2Proof.Machine

/-! Frames. -/

/-- Nothing changes from a state to itself; a frame of one write is this one with the written field put in. -/
theorem unchanged_refl (m : MayChange) (s : State) : Unchanged m s s where
  regs _ _ := rfl
  pc _ := rfl
  index _ := rfl
  stack _ := ⟨rfl, rfl⟩
  mem _ _ := rfl
  disp _ := rfl
  dt _ := rfl
  st _ := rfl
  key := rfl
  cfg := rfl
  rnd := rfl
  ticks := rfl
  halted := rfl
  fault := rfl

/-- The frame of a write of `I`. -/
theorem unchanged_setIndex (s : State) (a : Nat) : Unchanged { index := True } s (s.setIndex a) :=
  { unchanged_refl { index := True } s with index := fun h => absurd trivial h }

/-- The frame of a change of memory, given which bytes it keeps. -/
theorem unchanged_of_eq_withMem {s t : State} {p : Nat → Prop} (ht : t = { s with mem := t.mem })
    (hkeep : ∀ a, ¬ p a → t.byteAt a = s.byteAt a) : Unchanged { mem := p } s t := by
  generalize t.mem = m at ht
  subst ht
  exact { unchanged_refl { mem := p } s with mem := hkeep }

/-! Stores. -/

/-- An instruction that stores bytes in reach puts each at its address and changes nothing else (R34). -/
theorem orRaise_writeBytes_inReach {s : State} {a : Nat} {bs : List Byte} (hwf : Memory.wf s.cfg s.mem = true)
    (hlen : bs.length ≤ 4096) (hreach : InReach s.cfg a bs.length) :
    ∃ t, orRaise s (writeBytes s a bs) = .next t ∧
      (∀ j (hj : j < bs.length), t.byteAt ((a + j) % 4096) = bs[j]) ∧
      Unchanged { mem := fun k => ∃ j, j < bs.length ∧ k = (a + j) % 4096 } s t := by
  obtain ⟨t, hwrite, hbytes, hkeep⟩ := writeBytes_reach hreach hlen hwf
  obtain ⟨hmem, -⟩ := writeBytes_ok hwrite
  exact ⟨t, congrArg (orRaise s) hwrite, hbytes,
    unchanged_of_eq_withMem hmem fun k hk => hkeep k fun j hj hkj => hk ⟨j, hj, hkj⟩⟩

/-- An instruction that stores bytes out of reach takes the fault of the lowest such address and writes nothing (R35,
R131). -/
theorem orRaise_writeBytes_outOfReach {s : State} {a : Nat} {bs : List Byte} (h : OutOfReach s.cfg a bs.length) :
    orRaise s (writeBytes s a bs) = .next (raise (.addressFault (max a 4096) .write) s) := by
  obtain ⟨hpolicy, hpos, htop⟩ := h
  exact congrArg (orRaise s) (writeBytes_fault hpolicy hpos htop)

/-! Decimal digits. -/

/-- A byte has three decimal digits (R103). -/
@[simp] theorem length_bcdDigits (a : Byte) : (bcdDigits a).length = 3 := rfl

/-- The three bytes are the digits as numbers: each is below 256, so that none is narrowed (R103). -/
theorem toNat_bcdDigits (a : Byte) : (bcdDigits a)[0].toNat = a.toNat / 100 ∧
    (bcdDigits a)[1].toNat = a.toNat / 10 % 10 ∧ (bcdDigits a)[2].toNat = a.toNat % 10 := by
  have ha : a.toNat < 256 := a.isLt
  have toNat_digit : ∀ n, n < 256 → (BitVec.ofNat 8 n).toNat = n := fun n => Nat.mod_eq_of_lt
  exact ⟨toNat_digit _ (by omega), toNat_digit _ (by omega), toNat_digit _ (by omega)⟩

end Sys2Proof.Safety

namespace Sys2Proof.Proofs

open Sys2Proof.Machine Sys2Proof.Safety

/-- Settles O34: a store of the three digits, in reach and out of it. -/
theorem bcdStoreWritesThreeDigits : Obligations.BcdStoreWritesThreeDigits := by
  intro x s hwf
  refine ⟨fun hin => ?_, fun hout => orRaise_writeBytes_outOfReach hout⟩
  obtain ⟨t, hexec, hbytes, hframe⟩ :=
    orRaise_writeBytes_inReach (bs := bcdDigits s.v[x.val]) hwf (by simp) hin
  obtain ⟨hundreds, tens, ones⟩ := toNat_bcdDigits s.v[x.val]
  have hstored : ∀ j (hj : j < 3), (t.byteAt ((s.index + j) % 4096)).toNat = (bcdDigits s.v[x.val])[j].toNat :=
    fun j hj => congrArg BitVec.toNat (hbytes j hj)
  exact ⟨t, hexec, (hstored 0 (by omega)).trans hundreds, (hstored 1 (by omega)).trans tens,
    (hstored 2 (by omega)).trans ones, hframe⟩

/-- Settles O31: one write of `I`. -/
theorem setIndexLoadsItsLiteral : Obligations.SetIndexLoadsItsLiteral :=
  fun nnn s => ⟨s.setIndex nnn.toNat, rfl, rfl, unchanged_setIndex s nnn.toNat⟩

end Sys2Proof.Proofs
end

section
/-!
PROOFS, family 43_display. CLS (spec/43_display.md R110): the cells of the cleared grid and the frame of a write of the
display.
-/

namespace Sys2Proof.Safety

open Sys2Proof.Machine

/-- Every cell of the cleared grid is off, and so is what is read outside it (R18, R110). -/
theorem cellOf_cleared (cx cy : Nat) :
    cellOf (Vector.replicate 64 (Vector.replicate 32 false)) cx cy = false := by
  by_cases h : cx ≤ 63 ∧ cy ≤ 31
  · rw [cellOf_eq (by omega) (by omega), Vector.getElem_replicate, Vector.getElem_replicate]
  · exact cellOf_outside h

/-- The frame of a write of the display. -/
theorem unchanged_withDisp (s : State) (g : Grid) : Unchanged { disp := True } s { s with disp := g } :=
  { unchanged_refl { disp := True } s with disp := fun h => absurd trivial h }

end Sys2Proof.Safety

namespace Sys2Proof.Proofs

open Sys2Proof.Machine Sys2Proof.Safety

/-- Settles O40: one write of the display, with the cleared grid. -/
theorem clearScreenTurnsEveryCellOff : Obligations.ClearScreenTurnsEveryCellOff :=
  fun s => ⟨_, rfl, cellOf_cleared, unchanged_withDisp s _⟩

end Sys2Proof.Proofs
end

section
/-!
PROOFS, family 60_exceptions. The buffer that `Render` fills (spec/60_exceptions.md R148): its length, and which cell
each of its entries shows.
-/

namespace Sys2Proof.Safety

open Sys2Proof.Machine

/-- R148: the buffer has one entry for each of the 64 × 32 cells. -/
@[simp] theorem length_render (s : State) : (render s).length = 2048 := by
  rw [render, List.length_map, List.length_range]

/-- The entry at position `p` shows the cell in column `p % 64` of row `p / 64`. -/
theorem getElem?_render (s : State) {p : Nat} (hp : p < 2048) :
    (render s)[p]? = some (if cellOf s.disp (p % 64) (p / 64) then s.cfg.colorOn else s.cfg.colorOff) := by
  rw [render, List.getElem?_map, List.getElem?_range hp, Option.map_some]

end Sys2Proof.Safety

namespace Sys2Proof.Proofs

open Sys2Proof.Machine Sys2Proof.Safety

/-- Settles O59: position `cy * 64 + cx` has column `cx` and row `cy`. -/
theorem renderFillsTheBufferRowMajor : Obligations.RenderFillsTheBufferRowMajor := by
  refine fun s => ⟨length_render s, fun cx cy hx hy => ?_, rfl⟩
  have hcol : (cy * 64 + cx) % 64 = cx := by omega
  have hrow : (cy * 64 + cx) / 64 = cy := by omega
  rw [getElem?_render s (by omega), hcol, hrow]

end Sys2Proof.Proofs
end

section
/-!
PROOFS, family other. What an instruction can do, said once: `Effect s i t` lists the states `t` in which an instruction
`i` executed in `s` can end, one constructor for each kind of effect, and `exec_effect` says that `exec` always ends in
one of them. The rules about every instruction are case splits on it.
-/

namespace Sys2Proof

/-- The register an instruction names as its only destination (spec/10_state.md R11). -/
def Instr.destination : Instr → Option Reg
  | .ldVxNn x _ | .addVxNn x _ | .ldVxVy x _ | .orVxVy x _ | .andVxVy x _ | .xorVxVy x _ | .rndVxNn x _ | .ldVxDt x
  | .ldVxK x => some x
  | _ => none

/-- The destination of an instruction that produces a flag besides (spec/41_load_alu.md R92). -/
def Instr.flagDestination : Instr → Option Reg
  | .addVxVy x _ | .subVxVy x _ | .shrVx x _ | .subnVxVy x _ | .shlVx x _ => some x
  | _ => none

/-- The six skips (spec/40_control.md R70). -/
def Instr.isSkip : Instr → Bool
  | .seVxNn _ _ | .sneVxNn _ _ | .seVxVy _ _ | .sneVxVy _ _ | .skpVx _ | .sknpVx _ => true
  | _ => false

/-- The three instructions that write `I` (spec/10_state.md R14). -/
def Instr.setsIndex : Instr → Bool
  | .ldINnn _ | .addIVx _ | .ldFVx _ => true
  | _ => false

/-- The two instructions that write memory (spec/20_memory.md R31). -/
def Instr.isStore : Instr → Bool
  | .ldBVx _ | .ldMemVx _ => true
  | _ => false

end Sys2Proof

namespace Sys2Proof.Safety

open Sys2Proof.Machine

/-- The states in which an instruction executed in `s` can end. What is written to a register, a cell or memory is left
open: the rules about every instruction do not speak of it. -/
inductive Effect (s : State) : Instr → State → Prop
  /-- R131: a fault is recorded and nothing else is done; an address fault needs the policy `fault` (R35). -/
  | fault {i : Instr} (f : Fault) (hpolicy : ∀ a k, f = .addressFault a k → s.cfg.addrPolicy = .fault) :
      Effect s i (raise f s)
  /-- R110. -/
  | clear : Effect s .cls { s with disp := Vector.replicate 64 (Vector.replicate 32 false) }
  /-- R111. -/
  | draw (x y : Reg) (n : Nibble) (g : Grid) (b : Byte) :
      Effect s (.drwVxVyN x y n) (State.setV { s with disp := g } Reg.vf b)
  /-- R71. -/
  | ret {n : Nat} (hsp : s.sp = n + 1) : Effect s .ret (State.setPc { s with sp := n } ((s.stack[n]?).getD 0))
  /-- R72. -/
  | jump (nnn : BitVec 12) : Effect s (.jpNnn nnn) (s.setPc nnn.toNat)
  /-- R73. -/
  | call (nnn : BitVec 12) (hsp : s.sp < s.cfg.stackDepth) :
      Effect s (.callNnn nnn) (State.setPc { s with stack := s.stack.set s.sp s.pc, sp := s.sp + 1 } nnn.toNat)
  /-- R70: a skip that is not taken. -/
  | noSkip {i : Instr} (hi : i.isSkip = true) : Effect s i s
  /-- R70: a taken skip. -/
  | skip {i : Instr} (hi : i.isSkip = true) (hreach : s.cfg.addrPolicy = .wrap ∨ s.pc ≤ 4094) :
      Effect s i (s.setPc s.pcNext)
  /-- R80 to R85, R91, R122, R123. -/
  | register {i : Instr} {x : Reg} (hi : i.destination = some x) (b : Byte) : Effect s i (s.setV x b)
  /-- R86 to R90, R92. -/
  | flagged {i : Instr} {x : Reg} (hi : i.flagDestination = some x) (b g : Byte) : Effect s i (writeWithFlag s x b g)
  /-- R100 to R102. -/
  | index {i : Instr} {a : Nat} (hi : i.setsIndex = true) (hfits : s.cfg.Ok → a < 2 ^ s.cfg.iBits) :
      Effect s i (s.setIndex a)
  /-- R103, R104. -/
  | store {i : Instr} (hi : i.isStore = true) (m : Memory)
      (hwf : Memory.wf s.cfg s.mem = true → Memory.wf s.cfg m = true) : Effect s i { s with mem := m }
  /-- R105. -/
  | load {x : Reg} (w : Vector Byte 16) (hkeep : ∀ r : Reg, ¬ r ≤ x → w[r.val] = s.v[r.val]) :
      Effect s (.ldVxMem x) { s with v := w }
  /-- R122: no key is down. -/
  | wait (x : Reg) : Effect s (.ldVxK x) (s.setPc s.pcBack)
  /-- R124. -/
  | setDelay (x : Reg) : Effect s (.ldDtVx x) { s with dt := timerSet s.v[x.val] }
  /-- R125. -/
  | setSound (x : Reg) : Effect s (.ldStVx x) { s with st := timerSet s.v[x.val] }

/-! Values that fit the width of `pc` or of `I`. -/

/-- R6: `pc` has at least 13 bits. -/
theorem thirteen_le_pcBits {c : Config} (hok : c.Ok) : 13 ≤ c.pcBits := by
  obtain ⟨-, -, -, -, -, -, hbits, -⟩ := hok
  exact hbits

/-- R6: `I` has at least 13 bits. -/
theorem thirteen_le_iBits {c : Config} (hok : c.Ok) : 13 ≤ c.iBits := by
  obtain ⟨-, -, -, -, -, -, -, hbits⟩ := hok
  exact hbits

/-- Both widths are at least 13 (R6). -/
theorem lt_two_pow_of_lt {a w : Nat} (ha : a < 8192) (hw : 13 ≤ w) : a < 2 ^ w :=
  ha.trans_le (Nat.pow_le_pow_right Nat.two_pos hw)

/-- A literal fits (R53). -/
theorem nnn_lt_two_pow (nnn : BitVec 12) {w : Nat} (hw : 13 ≤ w) : nnn.toNat < 2 ^ w :=
  lt_two_pow_of_lt (nnn.isLt.trans (by decide)) hw

/-- A glyph address fits `I` (R102). -/
theorem glyphAddr_lt {s : State} (b : Byte) (hok : s.cfg.Ok) : glyphAddr s b < 2 ^ s.cfg.iBits := by
  obtain ⟨hfont, -⟩ := id hok
  have hb : b.toNat < 256 := b.isLt
  exact lt_two_pow_of_lt (show s.cfg.fontBase + b.toNat * 5 < 8192 by omega) (thirteen_le_iBits hok)

/-! The effect of each shared operation that may fault. -/

/-- A conditional skip. -/
theorem effect_skipIf {i : Instr} (hi : i.isSkip = true) (c : Bool) (s : State) :
    ∃ t, orRaise s (skipIf c s) = .next t ∧ Effect s i t := by
  obtain ⟨-, hs⟩ | ⟨-, hreach, hs⟩ | ⟨-, hpolicy, -, hs⟩ := skipIf_cases c s
  · exact ⟨s, by rw [hs, orRaise_ok], .noSkip hi⟩
  · exact ⟨_, by rw [hs, orRaise_ok], .skip hi hreach⟩
  · exact ⟨_, by rw [hs, orRaise_error], .fault _ fun _ _ _ => hpolicy⟩

/-! The skips on a key: the index check comes first (R120, R121). -/

/-- SKP with a key index of 0..15. -/
theorem exec_skpVx_of_lt {x : Reg} {s : State} (hk : s.v[x.val].toNat < 16) :
    exec (.skpVx x) s = orRaise s (skipIf s.key[s.v[x.val].toNat] s) := by
  simp only [exec, execSkpVx, regOperand, keyOperand_ok hk]

/-- SKNP with a key index of 0..15. -/
theorem exec_sknpVx_of_lt {x : Reg} {s : State} (hk : s.v[x.val].toNat < 16) :
    exec (.sknpVx x) s = orRaise s (skipIf (!s.key[s.v[x.val].toNat]) s) := by
  simp only [exec, execSknpVx, regOperand, keyOperand_ok hk]

/-- SKP with a key index above 15. -/
theorem exec_skpVx_of_not_lt {x : Reg} {s : State} (hk : ¬ s.v[x.val].toNat < 16) :
    exec (.skpVx x) s = .next (raise (.keyIndexFault s.v[x.val]) s) := by
  simp only [exec, execSkpVx, regOperand, keyOperand_fault hk, orRaise_error]

/-- SKNP with a key index above 15. -/
theorem exec_sknpVx_of_not_lt {x : Reg} {s : State} (hk : ¬ s.v[x.val].toNat < 16) :
    exec (.sknpVx x) s = .next (raise (.keyIndexFault s.v[x.val]) s) := by
  simp only [exec, execSknpVx, regOperand, keyOperand_fault hk, orRaise_error]

/-! The other instructions that may fault: what their operation answers, and then what they do. -/

/-- CALL with a free entry. -/
theorem exec_callNnn_of_lt (nnn : BitVec 12) {s : State} (h : s.sp < s.cfg.stackDepth) :
    exec (.callNnn nnn) s =
      .next (State.setPc { s with stack := s.stack.set s.sp s.pc, sp := s.sp + 1 } nnn.toNat) := by
  simp only [exec, execCallNnn, push, if_pos h, orRaise_ok, zextNnn]

/-- CALL on a full stack. -/
theorem exec_callNnn_of_not_lt (nnn : BitVec 12) {s : State} (h : ¬ s.sp < s.cfg.stackDepth) :
    exec (.callNnn nnn) s = .next (raise (.stackOverflow s.pc) s) := by
  simp only [exec, execCallNnn, push, if_neg h, orRaise_error]

/-- RET from a stack that is not empty, whether or not the array holds the entry. -/
theorem exec_ret_of_sp_succ {s : State} {n : Nat} (h : s.sp = n + 1) :
    exec .ret s = .next (State.setPc { s with sp := n } ((s.stack[n]?).getD 0)) := by
  refine exec_ret_of_pop_ok ?_
  simp only [pop, h]

/-- The `n` bytes from `I` on, each at its wrapped address (R31, R35). -/
def bytesAtIndex (s : State) (n : Nat) : List Byte := (List.range n).map fun j => s.byteAt ((s.index + j) % 4096)

@[simp] theorem length_bytesAtIndex (s : State) (n : Nat) : (bytesAtIndex s n).length = n := by simp [bytesAtIndex]

theorem getElem_bytesAtIndex (s : State) (n j : Nat) (h : j < (bytesAtIndex s n).length) :
    (bytesAtIndex s n)[j] = s.byteAt ((s.index + j) % 4096) := by simp [bytesAtIndex]

/-- A read from `I` on gives these bytes, or faults under the policy `fault` (R35). -/
theorem readBytes_index_cases (s : State) (n : Nat) :
    readBytes s s.index n = .ok (bytesAtIndex s n) ∨
      (readBytes s s.index n = .error (.addressFault (max s.index 4096) .read) ∧ s.cfg.addrPolicy = .fault) :=
  (readBytes_cases s s.index n).imp_right fun ⟨hbytes, hpolicy, _⟩ => ⟨hbytes, hpolicy⟩

/-- The registers after LD Vx, [I]: those up to `x` are loaded from the bytes at `I` on, the others kept (R105). -/
def loadedRegs (x : Reg) (s : State) : Vector Byte 16 :=
  Vector.ofFn fun r : Reg => if r ≤ x then s.byteAt ((s.index + r.val) % 4096) else s.v[r.val]

theorem loadedRegs_get (x r : Reg) (s : State) :
    (loadedRegs x s)[r.val] = if r ≤ x then s.byteAt ((s.index + r.val) % 4096) else s.v[r.val] := by
  rw [loadedRegs, Vector.getElem_ofFn]

/-- Loading the list of the bytes from `I` on gives these registers. -/
theorem setVs_v_eq_loadedRegs (x : Reg) (s : State) : (s.setVs 0 (bytesAtIndex s (x.val + 1))).v = loadedRegs x s := by
  have hlen : (bytesAtIndex s (x.val + 1)).length = x.val + 1 := length_bytesAtIndex s _
  refine Vector.ext fun r hr => (State.setVs_v_get _ 0 s ⟨r, hr⟩ (by omega)).trans ?_
  rw [loadedRegs_get x ⟨r, hr⟩]
  by_cases hrx : r ≤ x.val
  · rw [dif_pos ⟨Nat.zero_le _, show r < _ by omega⟩, if_pos (show (⟨r, hr⟩ : Reg) ≤ x from hrx), getElem_bytesAtIndex]
    rfl
  · rw [dif_neg fun h => hrx (by have hlt : r < _ := h.2; omega), if_neg (show ¬ (⟨r, hr⟩ : Reg) ≤ x from hrx)]

/-- LD Vx, [I] whose bytes are read. -/
theorem exec_ldVxMem_of_ok {x : Reg} {s : State}
    (h : readBytes s s.index (x.val + 1) = .ok (bytesAtIndex s (x.val + 1))) :
    exec (.ldVxMem x) s = .next { s with v := loadedRegs x s } := by
  simp only [exec, execLdVxMem, indexBase, h, orRaise_ok]
  rw [State.setVs_frame, setVs_v_eq_loadedRegs]

/-- LD Vx, [I] with a byte out of reach. -/
theorem exec_ldVxMem_of_error {x : Reg} {s : State} {f : Fault} (h : readBytes s s.index (x.val + 1) = .error f) :
    exec (.ldVxMem x) s = .next (raise f s) := by
  simp only [exec, execLdVxMem, indexBase, h, orRaise_error]

/-- The grid and the collision after a draw of the rows at `I` (R111). -/
def drawn (x y : Reg) (n : Nibble) (s : State) : Grid × Bool :=
  drawRows (spriteColumn s.v[x.val]) (spriteRow s.v[y.val])
    (bytesAtIndex s n.toNat) (s.disp, false)

/-- DRW whose rows are read. -/
theorem exec_drwVxVyN_of_ok {x y : Reg} {n : Nibble} {s : State}
    (h : readBytes s s.index n.toNat = .ok (bytesAtIndex s n.toNat)) :
    exec (.drwVxVyN x y n) s =
      .next (State.setV { s with disp := (drawn x y n s).1 } Reg.vf (flagByte (drawn x y n s).2)) := by
  simp only [exec, execDrwVxVyN, indexBase, h, orRaise_ok, drawn, regOperand]

/-- DRW with a row out of reach. -/
theorem exec_drwVxVyN_of_error {x y : Reg} {n : Nibble} {s : State} {f : Fault}
    (h : readBytes s s.index n.toNat = .error f) : exec (.drwVxVyN x y n) s = .next (raise f s) := by
  simp only [exec, execDrwVxVyN, indexBase, h, orRaise_error]

/-- LD Vx, K with no key down. -/
theorem exec_ldVxK_of_none (x : Reg) {s : State} (h : firstKeyDown s = none) :
    exec (.ldVxK x) s = .next (s.setPc s.pcBack) := by
  simp only [exec, execLdVxK, h]

/-- LD Vx, K with a lowest key down. -/
theorem exec_ldVxK_of_some (x : Reg) {s : State} {k : Nat} (h : firstKeyDown s = some k) :
    exec (.ldVxK x) s = .next (s.setV x (BitVec.ofNat 8 k)) := by
  simp only [exec, execLdVxK, h]

/-- Only the policy `fault` stops a sequence of stores (R35). -/
theorem policy_of_writeBytes_error :
    ∀ {bs : List Byte} {s : State} {a : Nat} {f : Fault}, writeBytes s a bs = .error f → s.cfg.addrPolicy = .fault
  | [], _, _, _, h => by cases h
  | b :: bs, s, a, f, h => by
    obtain ⟨-, hreach⟩ | ⟨-, hpolicy, -⟩ := effAddr_cases s.cfg a .write
    · rw [writeBytes, memWrite_reach hreach] at h
      exact policy_of_writeBytes_error (s := { s with mem := Memory.write s.cfg s.mem (a % 4096) b }) h
    · exact hpolicy

/-- A sequence of stores ends in a change of memory alone, or in the fault of its lowest address out of reach. -/
theorem effect_writeBytes {i : Instr} (hi : i.isStore = true) (s : State) (a : Nat) (bs : List Byte) :
    ∃ t, orRaise s (writeBytes s a bs) = .next t ∧ Effect s i t := by
  cases hw : writeBytes s a bs with
  | ok t =>
    obtain ⟨hmem, hwf⟩ := writeBytes_ok hw
    exact ⟨t, orRaise_ok s t, hmem ▸ .store hi t.mem hwf⟩
  | error f => exact ⟨_, orRaise_error s f, .fault f fun _ _ _ => policy_of_writeBytes_error hw⟩

/-! Every instruction. -/

/-- Every instruction answers a next state, and that state is one of its effects. -/
theorem exec_effect (i : Instr) (s : State) : ∃ t, exec i s = .next t ∧ Effect s i t := by
  cases i with
  | cls => exact ⟨_, rfl, .clear⟩
  | ret =>
    cases hsp : s.sp with
    | zero => exact ⟨_, exec_ret_of_pop_error (pop_of_empty hsp), .fault _ nofun⟩
    | succ n => exact ⟨_, exec_ret_of_sp_succ hsp, .ret hsp⟩
  | jpNnn nnn => exact ⟨_, rfl, .jump nnn⟩
  | callNnn nnn =>
    by_cases hsp : s.sp < s.cfg.stackDepth
    · exact ⟨_, exec_callNnn_of_lt nnn hsp, .call nnn hsp⟩
    · exact ⟨_, exec_callNnn_of_not_lt nnn hsp, .fault _ nofun⟩
  | seVxNn | sneVxNn | seVxVy | sneVxVy => exact effect_skipIf rfl _ s
  | ldVxNn | addVxNn | ldVxVy | orVxVy | andVxVy | xorVxVy | rndVxNn | ldVxDt => exact ⟨_, rfl, .register rfl _⟩
  | addVxVy | subVxVy | shrVx | subnVxVy | shlVx => exact ⟨_, rfl, .flagged rfl _ _⟩
  | ldINnn nnn => exact ⟨_, rfl, .index rfl fun hok => nnn_lt_two_pow nnn (thirteen_le_iBits hok)⟩
  | addIVx x => exact ⟨_, rfl, .index rfl fun _ => Nat.mod_lt _ (Nat.two_pow_pos _)⟩
  | ldFVx x => exact ⟨_, rfl, .index rfl (glyphAddr_lt _)⟩
  | drwVxVyN x y n =>
    obtain hrows | ⟨hrows, hpolicy⟩ := readBytes_index_cases s n.toNat
    · exact ⟨_, exec_drwVxVyN_of_ok hrows, .draw x y n _ _⟩
    · exact ⟨_, exec_drwVxVyN_of_error hrows, .fault _ fun _ _ _ => hpolicy⟩
  | skpVx x =>
    by_cases hk : s.v[x.val].toNat < 16
    · rw [exec_skpVx_of_lt hk]
      exact effect_skipIf rfl _ s
    · exact ⟨_, exec_skpVx_of_not_lt hk, .fault _ nofun⟩
  | sknpVx x =>
    by_cases hk : s.v[x.val].toNat < 16
    · rw [exec_sknpVx_of_lt hk]
      exact effect_skipIf rfl _ s
    · exact ⟨_, exec_sknpVx_of_not_lt hk, .fault _ nofun⟩
  | ldVxK x =>
    cases hkey : firstKeyDown s with
    | none => exact ⟨_, exec_ldVxK_of_none x hkey, .wait x⟩
    | some k => exact ⟨_, exec_ldVxK_of_some x hkey, .register rfl _⟩
  | ldDtVx x => exact ⟨_, rfl, .setDelay x⟩
  | ldStVx x => exact ⟨_, rfl, .setSound x⟩
  | ldBVx | ldMemVx => exact effect_writeBytes rfl s _ _
  | ldVxMem x =>
    obtain hbytes | ⟨hbytes, hpolicy⟩ := readBytes_index_cases s (x.val + 1)
    · exact ⟨_, exec_ldVxMem_of_ok hbytes, .load _ fun r hr => by rw [loadedRegs_get, if_neg hr]⟩
    · exact ⟨_, exec_ldVxMem_of_error hbytes, .fault _ fun _ _ _ => hpolicy⟩

/-- What an instruction ended in is one of its effects. -/
theorem effect_of_exec {i : Instr} {s t : State} (h : exec i s = .next t) : Effect s i t := by
  obtain ⟨u, hu, heffect⟩ := exec_effect i s
  rw [h] at hu
  cases hu
  exact heffect

end Sys2Proof.Safety
end

section
/-!
PROOFS, family other. The invariant `Legal`: each write of the state keeps it under the condition the written field
asks for, hence every effect of an instruction does, every tick, and every operation of the host.
-/

namespace Sys2Proof.Safety

open Sys2Proof.Machine

/-! One write each. -/

theorem Legal.setV {s : State} (hs : Legal s) (x : Reg) (b : Byte) : Legal (s.setV x b) := { hs with }

theorem Legal.withDisp {s : State} (hs : Legal s) (g : Grid) : Legal { s with disp := g } := { hs with }

theorem Legal.setPc {s : State} (hs : Legal s) {a : Nat} (hfits : a < 2 ^ s.cfg.pcBits)
    (hle : s.cfg.addrPolicy = .fault → a ≤ 4096) : Legal (s.setPc a) :=
  { hs with pcFits := hfits, pcLe := hle }

theorem Legal.setIndex {s : State} (hs : Legal s) {a : Nat} (hfits : a < 2 ^ s.cfg.iBits) : Legal (s.setIndex a) :=
  { hs with indexFits := hfits }

theorem Legal.withMem {s : State} (hs : Legal s) {m : Memory} (hwf : Memory.wf s.cfg m = true) :
    Legal { s with mem := m } :=
  { hs with memWf := hwf }

theorem Legal.raise {s : State} (hs : Legal s) (f : Fault) : Legal (raise f s) := { hs with faultIffHalted := rfl }

/-- A timer set leaves no time accumulated, and a period is at least 1 (R142). -/
theorem timerSet_acc_lt {c : Config} (hok : c.Ok) (b : Byte) : (timerSet b).acc < c.timerPeriod := by
  obtain ⟨-, -, -, hperiod, -⟩ := hok
  exact hperiod

/-- Both timers are drained by the update at the start of a tick (R141). -/
theorem Legal.beginTick {s : State} (hs : Legal s) (dt : Nat) (rnd : Byte) : Legal (beginTick dt rnd s) :=
  { hs with dtDrained := timerUpdate_drained .., stDrained := timerUpdate_drained .. }

/-! The call stack. -/

/-- A pop uses one entry less. -/
theorem Legal.pop {s : State} (hs : Legal s) {n : Nat} (hsp : s.sp = n + 1) : Legal { s with sp := n } :=
  { hs with
    spLe := (show n ≤ s.sp by omega).trans hs.spLe
    returnsFit := fun j a hj => hs.returnsFit j a (hsp ▸ Nat.lt_succ_of_lt hj)
    returnsLe := fun hpolicy j a hj => hs.returnsLe hpolicy j a (hsp ▸ Nat.lt_succ_of_lt hj) }

/-- What holds of the entries in use and of a new one holds of the entries in use after a push. -/
theorem forall_entries_push {p : Nat → Prop} {stack : List Nat} {sp b : Nat}
    (hstack : ∀ j a, j < sp → stack[j]? = some a → p a) (hb : p b) :
    ∀ j a, j < sp + 1 → (stack.set sp b)[j]? = some a → p a := by
  intro j a hj ha
  rw [List.getElem?_set] at ha
  split at ha
  · split at ha
    · cases ha; exact hb
    · cases ha
  · exact hstack j a (by omega) ha

/-- A push of the advanced `pc` onto a stack with a free entry. -/
theorem Legal.push {s : State} (hs : Legal s) (hsp : s.sp < s.cfg.stackDepth) :
    Legal { s with stack := s.stack.set s.sp s.pc, sp := s.sp + 1 } :=
  { hs with
    stackLength := List.length_set.trans hs.stackLength
    spLe := hsp
    returnsFit := forall_entries_push hs.returnsFit hs.pcFits
    returnsLe := fun hpolicy => forall_entries_push (hs.returnsLe hpolicy) (hs.pcLe hpolicy) }

/-- The entry a pop takes from a stack that is not empty is there (R15). -/
theorem Legal.exists_top {s : State} (hs : Legal s) {n : Nat} (hsp : s.sp = n + 1) : ∃ a, s.stack[n]? = some a := by
  have hlen : n < s.stack.length := by
    rw [hs.stackLength]
    exact (show n < s.sp by omega).trans_le hs.spLe
  exact ⟨_, List.getElem?_eq_getElem hlen⟩

/-! `pc` after a fetch, a skip and a wait. -/

/-- The address after a fetch in reach is at most 4096 under `fault` (R13). -/
theorem pcNext_le {s : State} (hreach : s.cfg.addrPolicy = .wrap ∨ s.pc ≤ 4094) (hpolicy : s.cfg.addrPolicy = .fault) :
    s.pcNext ≤ 4096 := by
  have hpc : s.pc ≤ 4094 := hreach.resolve_left (by simp [hpolicy])
  exact (Nat.mod_le _ _).trans (by omega)

/-- A fetch in reach, or a taken skip, keeps the invariant. -/
theorem Legal.setPc_pcNext {s : State} (hs : Legal s) (hreach : s.cfg.addrPolicy = .wrap ∨ s.pc ≤ 4094) :
    Legal (s.setPc s.pcNext) :=
  hs.setPc s.pcNext_lt (pcNext_le hreach)

/-- Going back does not wrap below 0 when an instruction was fetched below. -/
theorem pcBack_le {s : State} (hs : Legal s) (hpc : 2 ≤ s.pc) (hpolicy : s.cfg.addrPolicy = .fault) :
    s.pcBack ≤ 4096 := by
  have hle := hs.pcLe hpolicy
  have hfits := hs.pcFits
  have hback : s.pcBack = s.pc - 2 := by
    rw [State.pcBack, show s.pc + 2 ^ s.cfg.pcBits - 2 = s.pc - 2 + 2 ^ s.cfg.pcBits by omega, Nat.add_mod_right,
      Nat.mod_eq_of_lt (by omega)]
  omega

/-! Instructions, ticks and host operations. -/

/-- Every effect keeps the invariant. Under `fault`, `pc` is at least 2 after the fetch; a wait goes back by that 2. -/
theorem Effect.legal {i : Instr} {s t : State} (h : Effect s i t) (hs : Legal s)
    (hpc : s.cfg.addrPolicy = .fault → 2 ≤ s.pc) : Legal t := by
  have hbits := thirteen_le_pcBits hs.cfgOk
  cases h with
  | fault f => exact hs.raise f
  | clear => exact hs.withDisp _
  | draw x y n g b => exact (hs.withDisp g).setV _ b
  | ret hsp =>
    obtain ⟨a, ha⟩ := hs.exists_top hsp
    rw [ha, Option.getD_some]
    exact (hs.pop hsp).setPc (hs.returnsFit _ a (by omega) ha) fun hpolicy => hs.returnsLe hpolicy _ a (by omega) ha
  | jump nnn => exact hs.setPc (nnn_lt_two_pow nnn hbits) fun _ => nnn.isLt.le
  | call nnn hsp => exact (hs.push hsp).setPc (nnn_lt_two_pow nnn hbits) fun _ => nnn.isLt.le
  | noSkip => exact hs
  | skip _ hreach => exact hs.setPc_pcNext hreach
  | register _ b => exact hs.setV _ b
  | flagged _ b g => exact (hs.setV _ b).setV _ g
  | index _ hfits => exact hs.setIndex (hfits hs.cfgOk)
  | store _ m hwf => exact hs.withMem (hwf hs.memWf)
  | load w => exact { hs with }
  | wait x => exact hs.setPc s.pcBack_lt fun hpolicy => pcBack_le hs (hpc hpolicy) hpolicy
  | setDelay x => exact { hs with dtDrained := .inr (timerSet_acc_lt hs.cfgOk _) }
  | setSound x => exact { hs with stDrained := .inr (timerSet_acc_lt hs.cfgOk _) }

/-- A fetch in reach keeps the invariant. -/
theorem Legal.afterFetch {s : State} (hs : Legal s) (hreach : InReach s.cfg s.pc 2) (dt : Nat) (rnd : Byte) :
    Legal (afterFetch dt rnd s) :=
  (hs.beginTick dt rnd).setPc_pcNext (hreach.imp_right fun h => show s.pc ≤ 4094 by omega)

/-- After a fetch in reach under `fault`, `pc` has moved up by 2 without wrapping. -/
theorem two_le_pc_afterFetch {s : State} (hs : Legal s) (hreach : InReach s.cfg s.pc 2)
    (hpolicy : s.cfg.addrPolicy = .fault) (dt : Nat) (rnd : Byte) : 2 ≤ (afterFetch dt rnd s).pc := by
  have hpc : s.pc + 2 ≤ 4096 := hreach.resolve_left (by simp [hpolicy])
  have hlt : s.pc + 2 < 2 ^ s.cfg.pcBits := lt_two_pow_of_lt (by omega) (thirteen_le_pcBits hs.cfgOk)
  show 2 ≤ (s.pc + 2) % 2 ^ s.cfg.pcBits
  rw [Nat.mod_eq_of_lt hlt]
  omega

/-- A halted core ignores a tick (R133). -/
theorem tick_halted {s : State} (h : s.halted = true) (dt : Nat) (rnd : Byte) : tick dt rnd s = .next s := by
  rw [tick, if_pos h]

/-- Every tick keeps the invariant, whatever its inputs. -/
theorem Legal.tick {s t : State} (hs : Legal s) {dt : Nat} {rnd : Byte} (h : tick dt rnd s = .next t) : Legal t := by
  cases hhalted : s.halted with
  | true =>
    rw [tick_halted hhalted] at h
    cases h; exact hs
  | false =>
    obtain ⟨-, ht⟩ | ⟨hreach, g, -, ht⟩ | ⟨hreach, i, -, ht⟩ := tick_cases dt rnd hhalted <;> rw [ht] at h
    · cases h; exact (hs.beginTick dt rnd).raise _
    · cases h; exact (hs.afterFetch hreach dt rnd).raise _
    · exact (effect_of_exec h).legal (hs.afterFetch hreach dt rnd) fun hpolicy =>
        two_le_pc_afterFetch hs hreach hpolicy dt rnd

/-- R6: a program starts where a whole instruction fits. -/
theorem progStart_le {c : Config} (hok : c.Ok) : c.progStart ≤ 4094 := by
  obtain ⟨-, hstart, -⟩ := hok
  exact hstart

/-- The state after reset meets the invariant under every allowed configuration (R24). -/
theorem legal_resetWith {c : Config} (hok : c.Ok) : Legal (State.resetWith c) where
  cfgOk := hok
  memWf := Memory.wf_reset c
  stackLength := List.length_replicate
  spLe := Nat.zero_le _
  pcFits := lt_two_pow_of_lt ((progStart_le hok).trans_lt (by decide)) (thirteen_le_pcBits hok)
  indexFits := Nat.two_pow_pos _
  returnsFit _ _ hj := absurd hj (Nat.not_lt_zero _)
  pcLe _ := (progStart_le hok).trans (by decide)
  returnsLe _ _ _ hj := absurd hj (Nat.not_lt_zero _)
  dtDrained := .inl rfl
  stDrained := .inl rfl
  faultIffHalted := rfl

/-- The host's `Reset` leaves the state after reset, but for the model's own fields. -/
theorem legal_hostReset {s : State} (hok : s.cfg.Ok) : Legal (hostReset s) := { legal_resetWith hok with }

/-- An image inside memory is placed in canonical form. -/
theorem Legal.placeImage {s : State} (hs : Legal s) {a : Nat} {image : List Byte} (h : a + image.length ≤ 4096) :
    Legal (placeImage s a image) := by
  obtain ⟨hwf, -⟩ := placeImage_reach image s a h hs.memWf
  rw [placeImage_frame]
  exact hs.withMem hwf

/-- An accepted image ends inside memory (R146, R6). -/
theorem progStart_add_length_le {c : Config} (hok : c.Ok) {image : List Byte}
    (h : image.length ≤ 4096 - c.progStart) : c.progStart + image.length ≤ 4096 := by
  have hstart := progStart_le hok
  omega

/-- Load of an image that fits (R146). -/
theorem load_of_le {s : State} {image : List Byte} (h : image.length ≤ 4096 - s.cfg.progStart) :
    load image s = .next (placeImage (hostReset s) s.cfg.progStart image) := by
  rw [load, if_neg (Nat.not_lt.2 h)]

/-- Load of a longer image (R146, D17). -/
theorem load_of_lt {s : State} {image : List Byte} (h : 4096 - s.cfg.progStart < image.length) :
    load image s = .refused (.imageTooLong image.length) := by
  rw [load, if_pos h]

/-- Load either places the image over the reset state, or has no next state. -/
theorem load_eq_next {s t : State} {image : List Byte} (h : load image s = .next t) :
    image.length ≤ 4096 - s.cfg.progStart ∧ t = placeImage (hostReset s) s.cfg.progStart image := by
  obtain hlen | hlen := Nat.lt_or_ge (4096 - s.cfg.progStart) image.length
  · rw [load_of_lt hlen] at h
    cases h
  · rw [load_of_le hlen] at h
    cases h; exact ⟨hlen, rfl⟩

/-- KeySet of one of the sixteen keys (R149). -/
theorem keySet_of_lt {k : Nat} (h : k < 16) (pressed : Bool) (s : State) :
    keySet k pressed s = .next { s with key := s.key.set k pressed h } := by
  rw [keySet, dif_pos h]

/-- KeySet of an index above 15 (R149, D24). -/
theorem keySet_of_le {k : Nat} (h : 16 ≤ k) (pressed : Bool) (s : State) :
    keySet k pressed s = .refused (.keyIndexOutOfRange k) := by
  rw [keySet, dif_neg (Nat.not_lt.2 h)]

/-- KeySet either sets the key vector, or has no next state. -/
theorem keySet_eq_next {k : Nat} {pressed : Bool} {s t : State} (h : keySet k pressed s = .next t) :
    t = { s with key := t.key } := by
  obtain hk | hk := Nat.lt_or_ge k 16
  · rw [keySet_of_lt hk] at h
    cases h; rfl
  · rw [keySet_of_le hk] at h
    cases h

/-- Every operation of the host keeps the invariant (R145). -/
theorem Legal.move {m : Move} {s t : State} (hs : Legal s) (h : Machine.move m s = .next t) : Legal t := by
  cases m with
  | reset => cases h; exact legal_hostReset hs.cfgOk
  | load image =>
    obtain ⟨hlen, rfl⟩ := load_eq_next h
    exact (legal_hostReset hs.cfgOk).placeImage (progStart_add_length_le hs.cfgOk hlen)
  | tick dt rnd => exact hs.tick h
  | render => cases h; exact hs
  | keySet k pressed =>
    rw [keySet_eq_next h]
    exact { hs with }

end Sys2Proof.Safety

namespace Sys2Proof.Proofs

open Sys2Proof.Machine Sys2Proof.Safety

/-- Settles O53: a step is a tick with the free inputs. -/
theorem stepKeepsTheInvariant : Obligations.StepKeepsTheInvariant := fun _ _ hs h => hs.tick h

/-- Settles O54, operation by operation. -/
theorem hostOperationsKeepTheInvariant : Obligations.HostOperationsKeepTheInvariant := fun _ _ _ hs h => hs.move h

/-- Settles O55: the default configuration is an allowed one. -/
theorem resetSatisfiesTheInvariant : Obligations.ResetSatisfiesTheInvariant :=
  ⟨legal_resetWith (by decide), fun _ => legal_resetWith⟩

end Sys2Proof.Proofs
end

section
/-!
PROOFS, family other. Rules about every instruction, by a case split on its effect: which fault it can record
(spec/60_exceptions.md R131, R132), and which pieces of the state it can write (spec/10_state.md R11 to R20). Then the
tick: it always answers, and a halted core ignores it (R133).
-/

namespace Sys2Proof

/-! The classes of instructions, member by member. -/

theorem Instr.isSkip_iff {i : Instr} : i.isSkip = true ↔
    (∃ x nn, i = .seVxNn x nn) ∨ (∃ x nn, i = .sneVxNn x nn) ∨ (∃ x y, i = .seVxVy x y) ∨
      (∃ x y, i = .sneVxVy x y) ∨ (∃ x, i = .skpVx x) ∨ ∃ x, i = .sknpVx x := by
  cases i <;> simp [Instr.isSkip]

theorem Instr.setsIndex_iff {i : Instr} :
    i.setsIndex = true ↔ (∃ nnn, i = .ldINnn nnn) ∨ (∃ x, i = .addIVx x) ∨ ∃ x, i = .ldFVx x := by
  cases i <;> simp [Instr.setsIndex]

theorem Instr.isStore_iff {i : Instr} : i.isStore = true ↔ (∃ x, i = .ldBVx x) ∨ ∃ x, i = .ldMemVx x := by
  cases i <;> simp [Instr.isStore]

theorem Instr.destination_eq_some_iff {i : Instr} {x : Reg} : i.destination = some x ↔
    (∃ nn, i = .ldVxNn x nn) ∨ (∃ nn, i = .addVxNn x nn) ∨ (∃ y, i = .ldVxVy x y) ∨ (∃ y, i = .orVxVy x y) ∨
      (∃ y, i = .andVxVy x y) ∨ (∃ y, i = .xorVxVy x y) ∨ (∃ nn, i = .rndVxNn x nn) ∨ i = .ldVxDt x ∨
      i = .ldVxK x := by
  cases i <;> simp [Instr.destination]

theorem Instr.flagDestination_eq_some_iff {i : Instr} {x : Reg} : i.flagDestination = some x ↔
    ∃ y, i = .addVxVy x y ∨ i = .subVxVy x y ∨ i = .shrVx x y ∨ i = .subnVxVy x y ∨ i = .shlVx x y := by
  cases i <;> simp [Instr.flagDestination]

end Sys2Proof

namespace Sys2Proof.Safety

open Sys2Proof.Machine

variable {i : Instr} {s t : State}

/-! Faults. -/

/-- The one effect that touches the fault state is the record of a fault (R131). -/
theorem Effect.fault_cases (h : Effect s i t) :
    (t.halted = s.halted ∧ t.fault = s.fault) ∨
      ∃ f, t = raise f s ∧ ∀ a k, f = .addressFault a k → s.cfg.addrPolicy = .fault := by
  cases h with
  | fault f hpolicy => exact .inr ⟨f, rfl, hpolicy⟩
  | _ => exact .inl ⟨rfl, rfl⟩

/-- Under `wrap` no instruction records an address fault (R132). -/
theorem Effect.fault_ne_addressFault (h : Effect s i t) (hpolicy : s.cfg.addrPolicy = .wrap) {a : Nat} {k : AccessKind}
    (hs : s.fault ≠ some (.addressFault a k)) : t.fault ≠ some (.addressFault a k) := by
  obtain ⟨-, hfault⟩ | ⟨f, rfl, hf⟩ := h.fault_cases
  · rwa [hfault]
  · rw [raise_fault]
    intro heq
    have hfault := hf a k (Option.some.inj heq)
    rw [hpolicy] at hfault
    cases hfault

/-! The writers of each piece of state. -/

theorem Effect.isStore_of_byteAt_ne (h : Effect s i t) {a : Nat} (hne : t.byteAt a ≠ s.byteAt a) :
    i.isStore = true := by
  cases h with
  | store hi => exact hi
  | _ => exact absurd rfl hne

theorem Effect.setsIndex_of_index_ne (h : Effect s i t) (hne : t.index ≠ s.index) : i.setsIndex = true := by
  cases h with
  | index hi => exact hi
  | _ => exact absurd rfl hne

theorem Effect.ret_or_call_of_stack_ne (h : Effect s i t) (hne : t.stack ≠ s.stack ∨ t.sp ≠ s.sp) :
    i = .ret ∨ ∃ nnn, i = .callNnn nnn := by
  cases h with
  | ret => exact .inl rfl
  | call nnn => exact .inr ⟨nnn, rfl⟩
  | _ => exact absurd hne (by simp)

theorem Effect.cls_or_drw_of_disp_ne (h : Effect s i t) (hne : t.disp ≠ s.disp) :
    i = .cls ∨ ∃ x y n, i = .drwVxVyN x y n := by
  cases h with
  | clear => exact .inl rfl
  | draw x y n => exact .inr ⟨x, y, n, rfl⟩
  | _ => exact absurd rfl hne

theorem Effect.ldDt_of_dt_ne (h : Effect s i t) (hne : t.dt ≠ s.dt) : ∃ x, i = .ldDtVx x := by
  cases h with
  | setDelay x => exact ⟨x, rfl⟩
  | _ => exact absurd rfl hne

theorem Effect.ldSt_of_st_ne (h : Effect s i t) (hne : t.st ≠ s.st) : ∃ x, i = .ldStVx x := by
  cases h with
  | setSound x => exact ⟨x, rfl⟩
  | _ => exact absurd rfl hne

/-- No instruction writes the keys or the model's own fields (R19). -/
theorem Effect.key_cfg_rnd_ticks (h : Effect s i t) :
    t.key = s.key ∧ t.cfg = s.cfg ∧ t.rnd = s.rnd ∧ t.ticks = s.ticks := by
  cases h <;> exact ⟨rfl, rfl, rfl, rfl⟩

/-- The writers of `pc`, with what the skips and the wait write (R13). -/
theorem Effect.pc_cases (h : Effect s i t) (hne : t.pc ≠ s.pc) :
    i = .ret ∨ (∃ nnn, i = .jpNnn nnn) ∨ (∃ nnn, i = .callNnn nnn) ∨
      (t.pc = s.pcNext ∧ i.isSkip = true) ∨ t.pc = s.pcBack ∧ ∃ x, i = .ldVxK x := by
  cases h with
  | ret => exact .inl rfl
  | jump nnn => exact .inr (.inl ⟨nnn, rfl⟩)
  | call nnn => exact .inr (.inr (.inl ⟨nnn, rfl⟩))
  | skip hi => exact .inr (.inr (.inr (.inl ⟨rfl, hi⟩)))
  | wait x => exact .inr (.inr (.inr (.inr ⟨rfl, x, rfl⟩)))
  | _ => exact absurd rfl hne

/-- The writers of a register: those that name it, a load up to it, and for `VF` the flag producers and the draw. -/
theorem Effect.register_cases (h : Effect s i t) {r : Reg} (hne : t.v[r.val] ≠ s.v[r.val]) :
    i.destination = some r ∨ (∃ x, r ≤ x ∧ i = .ldVxMem x) ∨ (∃ x, i.flagDestination = some x ∧ (r = x ∨ r = 15)) ∨
      r = 15 ∧ ∃ x y n, i = .drwVxVyN x y n := by
  cases h with
  | draw x y n =>
    rw [State.setV_v_get] at hne
    exact .inr (.inr (.inr ⟨of_not_not fun hr => hne (if_neg hr), x, y, n, rfl⟩))
  | register hi =>
    rw [State.setV_v_get] at hne
    obtain rfl := of_not_not fun hr => hne (if_neg hr)
    exact .inl hi
  | flagged hi =>
    refine .inr (.inr (.inl ⟨_, hi, or_iff_not_imp_left.2 fun hx => of_not_not fun hvf => hne ?_⟩))
    rw [writeWithFlag_v_get, if_neg hvf, if_neg hx]
  | @load x w hkeep => exact .inr (.inl ⟨x, of_not_not fun hr => hne (hkeep r hr), rfl⟩)
  | _ => exact absurd rfl hne

/-! The tick. -/

/-- A tick always answers a next state. -/
theorem exists_tick_eq_next (s : State) (dt : Nat) (rnd : Byte) : ∃ t, tick dt rnd s = .next t := by
  cases hhalted : s.halted with
  | true => exact ⟨s, tick_halted hhalted dt rnd⟩
  | false =>
    obtain ⟨-, ht⟩ | ⟨-, g, -, ht⟩ | ⟨-, i, -, ht⟩ := tick_cases dt rnd hhalted
    · exact ⟨_, ht⟩
    · exact ⟨_, ht⟩
    · obtain ⟨t, hexec, -⟩ := exec_effect i (afterFetch dt rnd s)
      exact ⟨t, ht.trans hexec⟩

/-- An accepted load leaves a core that is not halted (R146). -/
theorem running_of_load {s t : State} {image : List Byte} (h : load image s = .next t) :
    t.halted = false ∧ t.fault = none := by
  obtain ⟨-, rfl⟩ := load_eq_next h
  rw [placeImage_frame]
  exact ⟨rfl, rfl⟩

/-- Only `Reset` and `Load` change the fault state of a halted core (R133). -/
theorem fault_of_move_halted {m : Move} {s t : State} (hhalted : s.halted = true) (h : Machine.move m s = .next t)
    (hreset : m ≠ .reset) (hload : ∀ image, m ≠ .load image) : t.halted = true ∧ t.fault = s.fault := by
  cases m with
  | reset => exact absurd rfl hreset
  | load image => exact absurd rfl (hload image)
  | tick dt rnd =>
    obtain rfl : s = t := by simpa using (tick_halted hhalted dt rnd).symm.trans h
    exact ⟨hhalted, rfl⟩
  | render => cases h; exact ⟨hhalted, rfl⟩
  | keySet k pressed =>
    rw [keySet_eq_next h]
    exact ⟨hhalted, rfl⟩

end Sys2Proof.Safety

namespace Sys2Proof.Proofs

open Sys2Proof.Machine Sys2Proof.Safety

/-- Settles O10: a halted core's tick answers the same state; of the other moves only `Reset` and `Load` write the fault
state. -/
theorem haltedStateIsAbsorbing : Obligations.HaltedStateIsAbsorbing :=
  fun s hhalted => ⟨tick_halted hhalted .., tick_halted hhalted, rfl,
    fun _ b hk => ⟨_, keySet_of_lt hk b s⟩,
    fun _ _ => fault_of_move_halted hhalted,
    ⟨_, rfl, rfl, rfl⟩,
    fun _ _ => running_of_load⟩

/-- Settles O11: a step is a tick. -/
theorem everyStepAnswersANextState : Obligations.EveryStepAnswersANextState :=
  fun s => exists_tick_eq_next s _ _

/-- Settles O12, by the instruction's effect. -/
theorem faultsArePrecise : Obligations.FaultsArePrecise := fun _ _ _ h =>
  (effect_of_exec h).fault_cases.imp_right fun ⟨f, hf, _⟩ => ⟨f, hf⟩

/-- Settles O13: the fetch is in reach under `wrap`, an illegal word is another fault, and no instruction records an
address fault. -/
theorem wrapPolicyNeverRaisesAnAddressFault : Obligations.WrapPolicyNeverRaisesAnAddressFault := by
  intro s t dt rnd a k hpolicy hnone h
  cases hhalted : s.halted with
  | true =>
    obtain rfl : s = t := by simpa using (tick_halted hhalted dt rnd).symm.trans h
    simp [hnone]
  | false =>
    obtain ⟨⟨hfault, -⟩, -⟩ | ⟨-, g, -, ht⟩ | ⟨-, i, -, ht⟩ := tick_cases dt rnd hhalted
    · rw [hpolicy] at hfault
      cases hfault
    · rw [ht] at h
      cases h; simp
    · refine (effect_of_exec (ht.symm.trans h)).fault_ne_addressFault hpolicy ?_
      rw [show (afterFetch dt rnd s).fault = none from hnone]
      nofun

/-- Settles O48, piece by piece. -/
theorem eachPieceOfStateHasItsWriters : Obligations.EachPieceOfStateHasItsWriters := by
  intro i s t h
  have heffect := effect_of_exec h
  exact ⟨fun ⟨_, hne⟩ => Instr.isStore_iff.1 (heffect.isStore_of_byteAt_ne hne),
    fun hne => Instr.setsIndex_iff.1 (heffect.setsIndex_of_index_ne hne), heffect.ret_or_call_of_stack_ne,
    heffect.cls_or_drw_of_disp_ne, heffect.ldDt_of_dt_ne, heffect.ldSt_of_st_ne, heffect.key_cfg_rnd_ticks⟩

/-- Settles O49: of the effects that write `pc`, a skip writes `pc + 2` and the key wait `pc - 2`. -/
theorem onlyControlInstructionsChangePc : Obligations.OnlyControlInstructionsChangePc := by
  intro i s t h hne
  obtain hret | hjump | hcall | ⟨hpc, hskip⟩ | ⟨hpc, hwait⟩ := (effect_of_exec h).pc_cases hne
  · exact .inl hret
  · exact .inr (.inl hjump)
  · exact .inr (.inr (.inl hcall))
  · exact .inr (.inr (.inr (.inl ⟨hpc, Instr.isSkip_iff.1 hskip⟩)))
  · exact .inr (.inr (.inr (.inr ⟨hpc ▸ s.pcBack_int, hwait⟩)))

/-- Settles O50: the writers of register 15. A load that reaches it names it. -/
theorem onlySixInstructionsWriteTheFlagUnasked : Obligations.OnlySixInstructionsWriteTheFlagUnasked := by
  intro i s t h hne
  obtain hnamed | ⟨x, hx, hload⟩ | ⟨x, hflag, -⟩ | ⟨-, hdraw⟩ := (effect_of_exec h).register_cases (r := 15) hne
  · have hlist := Instr.destination_eq_some_iff.1 hnamed
    tauto
  · obtain rfl : x = 15 := Fin.last_le_iff.1 hx
    simp [hload]
  · have hlist : ∃ x, i.flagDestination = some x := ⟨x, hflag⟩
    simp only [Instr.flagDestination_eq_some_iff] at hlist
    simp only [hlist, true_or, or_true]
  · simp only [hdraw, or_true]

end Sys2Proof.Proofs
end

section
/-!
PROOFS, family other. What an instruction does not read (spec/60_exceptions.md R143, spec/10_state.md R18, R19):
replacing the display, the keys or the timers commutes with every instruction that neither reads nor overwrites what is
replaced.
-/

namespace Sys2Proof.Safety

open Sys2Proof.Machine

/-- A replacement of the display, the keys and the timers; by default each stays as it is. -/
structure DeviceMap where
  disp : Grid → Grid := id
  key : Vector Bool 16 → Vector Bool 16 := id
  dt : Timer → Timer := id
  st : Timer → Timer := id

/-- A state with its devices replaced. -/
def DeviceMap.apply (p : DeviceMap) (s : State) : State :=
  { s with disp := p.disp s.disp, key := p.key s.key, dt := p.dt s.dt, st := p.st s.st }

/-- The instruction `i` neither reads nor overwrites what `p` replaces. -/
structure DeviceMap.Hidden (p : DeviceMap) (i : Instr) : Prop where
  disp : (i = .cls ∨ ∃ x y n, i = .drwVxVyN x y n) → p.disp = id
  key : ((∃ x, i = .skpVx x) ∨ (∃ x, i = .sknpVx x) ∨ ∃ x, i = .ldVxK x) → p.key = id
  dt : (∃ x, i = .ldDtVx x) → p.dt = id
  dtVal : ∀ T, (p.dt T).val = T.val
  st : (∃ x, i = .ldStVx x) → p.st = id

variable (p : DeviceMap)

/-! The shared operations read and write none of the devices. -/

theorem readBytes_apply (s : State) : ∀ n a, readBytes (p.apply s) a n = readBytes s a n
  | 0, _ => rfl
  | n + 1, a => by
    have hread : memRead (p.apply s) a .read = memRead s a .read := rfl
    simp only [readBytes, hread, readBytes_apply s n]

theorem writeBytes_apply :
    ∀ (bs : List Byte) (s : State) (a : Nat), writeBytes (p.apply s) a bs = (writeBytes s a bs).map p.apply
  | [], _, _ => rfl
  | b :: bs, s, a => by
    obtain ⟨-, hreach⟩ | ⟨-, hpolicy, ha⟩ := effAddr_cases s.cfg a .write
    · rw [writeBytes, writeBytes, memWrite_reach hreach, memWrite_reach (s := p.apply s) hreach]
      exact writeBytes_apply bs { s with mem := Memory.write s.cfg s.mem (a % 4096) b } (a + 1)
    · rw [writeBytes, writeBytes, memWrite_fault hpolicy ha, memWrite_fault (s := p.apply s) hpolicy ha]
      rfl

theorem skipIf_apply (c : Bool) (s : State) : skipIf c (p.apply s) = (skipIf c s).map p.apply := by
  cases c with
  | false => rfl
  | true =>
    obtain hreach | hout := inReach_or_outOfReach s.cfg s.pc 1
    · exact (skip_inReach (s := p.apply s) hreach).trans (congrArg (Except.map p.apply) (skip_inReach hreach).symm)
    · exact (skip_outOfReach (s := p.apply s) hout).trans (congrArg (Except.map p.apply) (skip_outOfReach hout).symm)

/-- An instruction's end commutes with the replacement if its result does. -/
theorem orRaise_apply {s t : State} {r r' : Except Fault State} (hr : r' = r.map p.apply) (h : orRaise s r = .next t) :
    orRaise (p.apply s) r' = .next (p.apply t) := by
  subst hr
  cases r <;> cases h <;> rfl

variable {p}

/-! Every instruction. -/

/-- It is enough to compare the two runs at the state the first is known to end in. -/
theorem exec_apply_of_eq {i : Instr} {s t u : State} (hu : exec i s = .next u)
    (hpu : exec i (p.apply s) = .next (p.apply u)) (h : exec i s = .next t) :
    exec i (p.apply s) = .next (p.apply t) := by
  rw [hu] at h
  cases h; exact hpu

/-- A draw from a state whose display is not replaced. -/
theorem exec_drwVxVyN_apply {x y : Reg} {n : Nibble} {s t : State} (hp : p.disp = id)
    (h : exec (.drwVxVyN x y n) s = .next t) : exec (.drwVxVyN x y n) (p.apply s) = .next (p.apply t) := by
  obtain ⟨disp, key, dt, st⟩ := p
  obtain rfl : disp = id := hp
  obtain hrows | ⟨hrows, -⟩ := readBytes_index_cases s n.toNat
  · exact exec_apply_of_eq (exec_drwVxVyN_of_ok hrows) (exec_drwVxVyN_of_ok ((readBytes_apply _ s _ _).trans hrows)) h
  · exact exec_apply_of_eq (exec_drwVxVyN_of_error hrows)
      (exec_drwVxVyN_of_error ((readBytes_apply _ s _ _).trans hrows)) h

/-- A register load. -/
theorem exec_ldVxMem_apply {x : Reg} {s t : State} (h : exec (.ldVxMem x) s = .next t) :
    exec (.ldVxMem x) (p.apply s) = .next (p.apply t) := by
  obtain hbytes | ⟨hbytes, -⟩ := readBytes_index_cases s (x.val + 1)
  · exact exec_apply_of_eq (exec_ldVxMem_of_ok hbytes) (exec_ldVxMem_of_ok ((readBytes_apply _ s _ _).trans hbytes)) h
  · exact exec_apply_of_eq (exec_ldVxMem_of_error hbytes)
      (exec_ldVxMem_of_error ((readBytes_apply _ s _ _).trans hbytes)) h

/-- The replacement commutes with every instruction it is hidden from. -/
theorem exec_apply {i : Instr} {s t : State} (hp : p.Hidden i) (h : exec i s = .next t) :
    exec i (p.apply s) = .next (p.apply t) := by
  cases i with
  | cls =>
    obtain ⟨disp, key, dt, st⟩ := p
    obtain rfl : disp = id := hp.disp (.inl rfl)
    cases h; rfl
  | ret =>
    cases hsp : s.sp with
    | zero =>
      exact exec_apply_of_eq (exec_ret_of_pop_error (pop_of_empty hsp))
        (exec_ret_of_pop_error (pop_of_empty (s := p.apply s) hsp)) h
    | succ n => exact exec_apply_of_eq (exec_ret_of_sp_succ hsp) (exec_ret_of_sp_succ (s := p.apply s) hsp) h
  | callNnn nnn =>
    by_cases hsp : s.sp < s.cfg.stackDepth
    · exact exec_apply_of_eq (exec_callNnn_of_lt nnn hsp) (exec_callNnn_of_lt nnn (s := p.apply s) hsp) h
    · exact exec_apply_of_eq (exec_callNnn_of_not_lt nnn hsp) (exec_callNnn_of_not_lt nnn (s := p.apply s) hsp) h
  | seVxNn | sneVxNn | seVxVy | sneVxVy => exact orRaise_apply p (skipIf_apply p _ s) h
  | drwVxVyN x y n => exact exec_drwVxVyN_apply (hp.disp (.inr ⟨x, y, n, rfl⟩)) h
  | skpVx x =>
    obtain ⟨disp, key, dt, st⟩ := p
    obtain rfl : key = id := hp.key (.inl ⟨x, rfl⟩)
    by_cases hk : s.v[x.val].toNat < 16
    · rw [exec_skpVx_of_lt hk] at h
      exact (exec_skpVx_of_lt (s := DeviceMap.apply _ s) hk).trans (orRaise_apply _ (skipIf_apply _ _ s) h)
    · exact exec_apply_of_eq (exec_skpVx_of_not_lt hk) (exec_skpVx_of_not_lt hk) h
  | sknpVx x =>
    obtain ⟨disp, key, dt, st⟩ := p
    obtain rfl : key = id := hp.key (.inr (.inl ⟨x, rfl⟩))
    by_cases hk : s.v[x.val].toNat < 16
    · rw [exec_sknpVx_of_lt hk] at h
      exact (exec_sknpVx_of_lt (s := DeviceMap.apply _ s) hk).trans (orRaise_apply _ (skipIf_apply _ _ s) h)
    · exact exec_apply_of_eq (exec_sknpVx_of_not_lt hk) (exec_sknpVx_of_not_lt hk) h
  | ldVxK x =>
    obtain ⟨disp, key, dt, st⟩ := p
    obtain rfl : key = id := hp.key (.inr (.inr ⟨x, rfl⟩))
    cases hkey : firstKeyDown s with
    | none => exact exec_apply_of_eq (exec_ldVxK_of_none x hkey) (exec_ldVxK_of_none x hkey) h
    | some k => exact exec_apply_of_eq (exec_ldVxK_of_some x hkey) (exec_ldVxK_of_some x hkey) h
  | ldVxDt x =>
    cases h
    exact congrArg (fun b => Host.Outcome.next ((p.apply s).setV x b)) (hp.dtVal s.dt)
  | ldDtVx x =>
    obtain ⟨disp, key, dt, st⟩ := p
    obtain rfl : dt = id := hp.dt ⟨x, rfl⟩
    cases h; rfl
  | ldStVx x =>
    obtain ⟨disp, key, dt, st⟩ := p
    obtain rfl : st = id := hp.st ⟨x, rfl⟩
    cases h; rfl
  | ldBVx | ldMemVx => exact orRaise_apply p (writeBytes_apply p _ s _) h
  | ldVxMem x => exact exec_ldVxMem_apply h
  | _ => cases h; rfl

end Sys2Proof.Safety

namespace Sys2Proof.Proofs

open Sys2Proof.Machine Sys2Proof.Safety

/-- Settles O51: the sound timer is hidden from all but LD ST, the delay timer's accumulator from all but LD DT. -/
theorem noInstructionReadsTheHiddenTimers : Obligations.NoInstructionReadsTheHiddenTimers := by
  intro i s t T a h
  refine ⟨fun hst => exec_apply (p := { st := fun _ => T }) ?_ h,
    fun hdt => exec_apply (p := { dt := fun U => { U with acc := a } }) ?_ h⟩
  · exact ⟨fun _ => rfl, fun _ => rfl, fun _ => rfl, fun _ => rfl, fun ⟨x, hx⟩ => absurd hx (hst x)⟩
  · exact ⟨fun _ => rfl, fun _ => rfl, fun ⟨x, hx⟩ => absurd hx (hdt x), fun _ => rfl, fun _ => rfl⟩

/-- Settles O52: the display is hidden from all but CLS and DRW, the keys from all but the key skips and the wait. -/
theorem displayAndKeysHaveTheirReaders : Obligations.DisplayAndKeysHaveTheirReaders := by
  intro i s t g ks h
  refine ⟨fun hcls hdrw => exec_apply (p := { disp := fun _ => g }) ?_ h,
    fun hskp hsknp hwait => exec_apply (p := { key := fun _ => ks }) ?_ h⟩
  · refine ⟨fun hi => ?_, fun _ => rfl, fun _ => rfl, fun _ => rfl, fun _ => rfl⟩
    obtain hi | ⟨x, y, n, hi⟩ := hi
    · exact absurd hi hcls
    · exact absurd hi (hdrw x y n)
  · refine ⟨fun _ => rfl, fun hi => ?_, fun _ => rfl, fun _ => rfl, fun _ => rfl⟩
    obtain ⟨x, hi⟩ | ⟨x, hi⟩ | ⟨x, hi⟩ := hi
    · exact absurd hi (hskp x)
    · exact absurd hi (hsknp x)
    · exact absurd hi (hwait x)

end Sys2Proof.Proofs
end

section
/-!
PROOFS, family other. The opcode table and the illegal words (spec/30_encoding.md R55, R57): a word has at most one row,
and each part of the decoder refuses exactly its own group.
-/

namespace Sys2Proof

/-- Different instructions have different words: the decoder tells them apart. -/
theorem encode_injective : Function.Injective encode := by
  intro i j h
  have hi := decode_encode i
  rw [h, decode_encode j] at hi
  exact (Except.ok.inj hi).symm

/-- Two rows that select one word are the row of the instruction it decodes to (R55). -/
theorem row_eq_of_selects {w : Word} {r q : OpcodeRow} (hr : r ∈ opcodeTable) (hq : q ∈ opcodeTable)
    (hrw : r.selects w = true) (hqw : q.selects w = true) : r = q := by
  obtain ⟨i, rfl, hi⟩ := exists_instr_of_selects hr hrw
  obtain ⟨j, rfl, hj⟩ := exists_instr_of_selects hq hqw
  rw [encode_injective (hi.trans hj.symm)]

/-! What each part of the decoder refuses. -/

/-- A guarded arm of the decoder refuses exactly where its guard fails. -/
theorem exists_ite_eq_error {p : Prop} [Decidable p] {i : Instr} {g : IllegalWord} :
    (∃ g', (if p then Except.ok i else Except.error g) = Except.error g') ↔ ¬ p := by
  by_cases hp : p <;> simp [hp]

theorem decodeZero_error_iff {n2 n1 n0 : Nibble} : (∃ g, decodeZero n2 n1 n0 = .error g) ↔
    ¬ (n2 = 0x0 ∧ n1 = 0xE ∧ n0 = 0x0) ∧ ¬ (n2 = 0x0 ∧ n1 = 0xE ∧ n0 = 0xE) := by
  unfold decodeZero
  by_cases hcls : n2 = 0x0 ∧ n1 = 0xE ∧ n0 = 0x0
  · simp [hcls]
  · rw [if_neg hcls, exists_ite_eq_error, and_iff_right hcls]

theorem decodeAlu_error_iff {x y : Reg} {n0 : Nibble} : (∃ g, decodeAlu x y n0 = .error g) ↔
    n0 = 0x8 ∨ n0 = 0x9 ∨ n0 = 0xA ∨ n0 = 0xB ∨ n0 = 0xC ∨ n0 = 0xD ∨ n0 = 0xF := by
  have herror : (∃ g, decodeAlu x y n0 = .error g) ↔
      n0 ∉ [0x0#4, 0x1#4, 0x2#4, 0x3#4, 0x4#4, 0x5#4, 0x6#4, 0x7#4, 0xE#4] := by
    unfold decodeAlu
    split <;> simp_all
  rw [herror]
  clear herror
  revert n0
  decide

theorem decodeKeys_error_iff {x : Reg} {n1 n0 : Nibble} : (∃ g, decodeKeys x n1 n0 = .error g) ↔
    ¬ (n1 = 0x9 ∧ n0 = 0xE) ∧ ¬ (n1 = 0xA ∧ n0 = 0x1) := by
  unfold decodeKeys
  by_cases hskp : n1 = 0x9 ∧ n0 = 0xE
  · simp [hskp]
  · rw [if_neg hskp, exists_ite_eq_error, and_iff_right hskp]

theorem decodeMisc_error_iff {x : Reg} {low : Byte} : (∃ g, decodeMisc x low = .error g) ↔
    ∀ kk ∈ [0x07#8, 0x0A#8, 0x15#8, 0x18#8, 0x1E#8, 0x29#8, 0x33#8, 0x55#8, 0x65#8], low ≠ kk := by
  unfold decodeMisc
  split <;> simp_all

/-- Four nibbles are refused exactly in the groups of R57: by the arms of the first nibble, 0 to F. -/
theorem decodeNibbles_error_iff {n3 n2 n1 n0 : Nibble} : (∃ g, decodeNibbles n3 n2 n1 n0 = .error g) ↔
    (n3 = 0x0 ∧ ¬ (n2 = 0x0 ∧ n1 = 0xE ∧ n0 = 0x0) ∧ ¬ (n2 = 0x0 ∧ n1 = 0xE ∧ n0 = 0xE)) ∨
    (n3 = 0x5 ∧ n0 ≠ 0x0) ∨
    (n3 = 0x8 ∧ (n0 = 0x8 ∨ n0 = 0x9 ∨ n0 = 0xA ∨ n0 = 0xB ∨ n0 = 0xC ∨ n0 = 0xD ∨ n0 = 0xF)) ∨
    (n3 = 0x9 ∧ n0 ≠ 0x0) ∨
    n3 = 0xB ∨
    (n3 = 0xE ∧ ¬ (n1 = 0x9 ∧ n0 = 0xE) ∧ ¬ (n1 = 0xA ∧ n0 = 0x1)) ∨
    (n3 = 0xF ∧ ∀ kk ∈ [0x07#8, 0x0A#8, 0x15#8, 0x18#8, 0x1E#8, 0x29#8, 0x33#8, 0x55#8, 0x65#8], n1 ++ n0 ≠ kk) := by
  unfold decodeNibbles
  split
  · rw [decodeZero_error_iff]; simp
  · simp
  · simp
  · simp
  · simp
  · rw [exists_ite_eq_error]; simp
  · simp
  · simp
  · rw [decodeAlu_error_iff]; simp
  · rw [exists_ite_eq_error]; simp
  · simp
  · simp
  · simp
  · simp
  · rw [decodeKeys_error_iff]; simp
  · obtain rfl : n3 = 0xF := by revert n3; decide
    rw [decodeMisc_error_iff]; simp

/-! Words by their nibbles. -/

/-- Equality of a word with four written nibbles. -/
theorem eq_wordOfNibbles_iff {w : Word} {a b c d : Nibble} :
    w = wordOfNibbles a b c d ↔ nibble3 w = a ∧ nibble2 w = b ∧ nibble1 w = c ∧ nibble0 w = d := by
  rw [← wordOfNibbles_inj, wordOfNibbles_nibbles]

/-- The low byte of a word is its two low nibbles. -/
theorem nibble1_append_nibble0 (w : Word) : nibble1 w ++ nibble0 w = w.extractLsb' 0 8 := by
  ext i hi
  simp only [nibble1, nibble0, BitVec.getElem_append, BitVec.getElem_extractLsb']
  by_cases h0 : i < 4
  · simp only [h0, dif_pos]
  · simp only [h0, dif_neg, not_false_eq_true]
    congr 1
    omega

/-- Two bytes written as nibbles are equal nibble by nibble. -/
theorem append_eq_append_iff {a b c d : Nibble} : a ++ b = c ++ d ↔ a = c ∧ b = d := by
  refine ⟨fun h => ⟨?_, ?_⟩, fun ⟨hac, hbd⟩ => by rw [hac, hbd]⟩
  · rw [← BitVec.extractLsb'_append_eq_left (a := a) (b := b), h, BitVec.extractLsb'_append_eq_left]
  · rw [← BitVec.extractLsb'_append_eq_right (a := a) (b := b), h, BitVec.extractLsb'_append_eq_right]

end Sys2Proof

namespace Sys2Proof.Proofs

/-- Settles O3: each row that selects a word is the row of its one instruction. -/
theorem opcodePatternsAreMutuallyExclusive : Obligations.OpcodePatternsAreMutuallyExclusive :=
  fun _ _ _ => row_eq_of_selects

/-- Settles O5: the groups of the decoder's nibbles, the words and low bytes of the table read nibble by nibble. -/
theorem illegalWordsAreTheSevenGroups : Obligations.IllegalWordsAreTheSevenGroups := by
  intro w
  have hcls : w = 0x00E0 ↔ _ := eq_wordOfNibbles_iff (a := 0x0) (b := 0x0) (c := 0xE) (d := 0x0)
  have hret : w = 0x00EE ↔ _ := eq_wordOfNibbles_iff (a := 0x0) (b := 0x0) (c := 0xE) (d := 0xE)
  have hskp : w.extractLsb' 0 8 = 0x9E ↔ _ := nibble1_append_nibble0 w ▸ append_eq_append_iff (c := 0x9) (d := 0xE)
  have hsknp : w.extractLsb' 0 8 = 0xA1 ↔ _ := nibble1_append_nibble0 w ▸ append_eq_append_iff (c := 0xA) (d := 0x1)
  rw [decode, decodeNibbles_error_iff, nibble1_append_nibble0]
  simp only [ne_eq, hskp, hsknp]
  refine or_congr_left (and_congr_right fun hzero => ?_)
  simp only [hcls, hret, hzero, true_and]

end Sys2Proof.Proofs
end

section
/-!
PROOFS, family other. The timer loop in closed form (spec/60_exceptions.md R141), and the ticks that come back to where
they began (spec/40_control.md R72, spec/44_keypad_timer.md R122).
-/

namespace Sys2Proof.Safety

open Sys2Proof.Machine

/-! The timer. -/

/-- The loop takes off one and a period as often as both last: `min(val, floor(acc / period))` times. -/
theorem timerLoop_eq {period : Nat} (hperiod : 1 ≤ period) : ∀ v acc, timerLoop period v acc =
    (v - min v (acc / period), acc - period * min v (acc / period))
  | 0, acc => by simp [timerLoop]
  | v + 1, acc => by
    rw [timerLoop_succ]
    by_cases hacc : acc ≥ period
    · have hdiv : acc / period = (acc - period) / period + 1 := Nat.div_eq_sub_div hperiod hacc
      rw [if_pos hacc, timerLoop_eq hperiod v, hdiv, Nat.add_min_add_right, Nat.mul_add_one, Nat.add_sub_add_right,
        Nat.sub_sub, Nat.add_comm period]
    · simp [if_neg hacc, Nat.div_eq_of_lt (Nat.lt_of_not_le hacc)]

/-- An update by whole periods, no more of them than the value, from an empty accumulator. -/
theorem timerUpdate_whole_periods {period : Nat} (hperiod : 1 ≤ period) (b : Byte) {k : Nat} (hk : k ≤ b.toNat) :
    timerUpdate period ⟨b, 0⟩ (k * period) = ⟨BitVec.ofNat 8 (b.toNat - k), 0⟩ := by
  have hdiv : (0 + k * period) / period = k := by rw [Nat.zero_add, Nat.mul_div_cancel _ hperiod]
  simp only [timerUpdate, timerLoop_eq hperiod, hdiv, Nat.min_eq_right hk]
  rw [Nat.zero_add, Nat.mul_comm, Nat.sub_self]

/-- A timer at 0 stays at 0. -/
theorem timerUpdate_val_of_zero (period : Nat) {T : Timer} (h : T.val = 0) (dt : Nat) :
    (timerUpdate period T dt).val = 0 := by
  have hzero : T.val.toNat = 0 := by rw [h]; rfl
  simp [timerUpdate, hzero, timerLoop]

end Sys2Proof.Safety

namespace Sys2Proof.Proofs

open Sys2Proof.Machine Sys2Proof.Safety

/-- Settles O9: the policy decides whether the fetch is in reach. -/
theorem fetchAtTheTopOfMemoryFollowsThePolicy : Obligations.FetchAtTheTopOfMemoryFollowsThePolicy :=
  fun _ dt rnd hrun => ⟨
    fun hpolicy hpc => tick_outOfReach dt rnd hrun ⟨hpolicy, Nat.two_pos, Nat.add_lt_add_right hpc 2⟩,
    fun hpolicy => tick_inReach dt rnd hrun (.inl hpolicy)⟩

/-- Settles O15, by the closed form of the loop. -/
theorem timerUpdateTakesOffWholePeriods : Obligations.TimerUpdateTakesOffWholePeriods := by
  intro period T dt hperiod
  refine ⟨?_, ?_, timerUpdate_drained period T dt⟩
  · rw [timerUpdate_val_toNat, timerLoop_eq hperiod]
  · rw [timerUpdate_acc, timerLoop_eq hperiod]

/-- Settles O16: three periods at once, and one period at 3, at 2 and at 1. -/
theorem timerOfThreePeriodsReachesZero : Obligations.TimerOfThreePeriodsReachesZero := by
  intro period hperiod
  have hone : ∀ b : Byte, 1 ≤ b.toNat → timerUpdate period ⟨b, 0⟩ period = ⟨BitVec.ofNat 8 (b.toNat - 1), 0⟩ :=
    fun b hb => by simpa using timerUpdate_whole_periods hperiod b hb
  refine ⟨timerUpdate_whole_periods hperiod 3 (by decide), ?_, fun T dt hT => timerUpdate_val_of_zero period hT dt⟩
  rw [hone 3 (by decide), hone _ (by decide), hone _ (by decide)]
  rfl

/-- Settles O18: the jump takes back the `pc` of the fetch. -/
theorem jumpToItselfLeavesPcConstant : Obligations.JumpToItselfLeavesPcConstant := by
  intro s nnn dt rnd hrun hreach hi hself
  have hback : (afterFetch dt rnd s).setPc nnn.toNat = beginTick dt rnd s := by rw [hself]; rfl
  exact (tick_of_decode_ok dt rnd hrun hreach hi).trans (congrArg _ hback)

/-- Settles O45: the wait takes back the `pc` of the fetch. -/
theorem keyWaitTickChangesOnlyTheTimers : Obligations.KeyWaitTickChangesOnlyTheTimers := by
  intro x s dt rnd hrun hfits hreach hi hkeys
  have hnone : firstKeyDown (afterFetch dt rnd s) = none := firstKeyDown_none (s := afterFetch dt rnd s) hkeys
  rw [tick_of_decode_ok dt rnd hrun hreach hi, exec_ldVxK_of_none x hnone, pcBack_afterFetch dt rnd hfits]
  rfl

end Sys2Proof.Proofs
end

section
/-!
PROOFS, family other. The call, the logic operations, the shifts, the random byte, the writes of `I` and of the timers,
and the instructions on keys, each by the write or the skip it ends in.
-/

namespace Sys2Proof.Safety

open Sys2Proof.Machine

/-- A right shift by one as a bit vector operation (R88). -/
theorem shrResult_eq (a : Byte) : shrResult a = a >>> 1 := by
  apply BitVec.eq_of_toNat_eq
  have ha : a.toNat < 256 := a.isLt
  simp only [shrResult, BitVec.toNat_ofNat, BitVec.toNat_ushiftRight, Nat.shiftRight_eq_div_pow]
  omega

/-- A left shift by one as a bit vector operation (R90). -/
theorem shlResult_eq (a : Byte) : shlResult a = a <<< 1 := by
  apply BitVec.eq_of_toNat_eq
  simp only [shlResult, BitVec.toNat_ofNat, BitVec.toNat_shiftLeft, Nat.shiftLeft_eq, Nat.pow_one]

/-- The frame of a write of the delay timer. -/
theorem unchanged_withDt (s : State) (T : Timer) : Unchanged { dt := True } s { s with dt := T } :=
  { unchanged_refl { dt := True } s with dt := fun h => absurd trivial h }

/-- The frame of a write of the sound timer. -/
theorem unchanged_withSt (s : State) (T : Timer) : Unchanged { st := True } s { s with st := T } :=
  { unchanged_refl { st := True } s with st := fun h => absurd trivial h }

end Sys2Proof.Safety

namespace Sys2Proof.Proofs

open Sys2Proof.Machine Sys2Proof.Safety

/-- Settles O19: one entry of the stack array is set; a full stack is the overflow. -/
theorem callPushesTheReturnAddress : Obligations.CallPushesTheReturnAddress := by
  intro nnn s hlen
  refine ⟨fun hsp => ?_, fun hfull => exec_callNnn_of_not_lt nnn (by omega)⟩
  exact ⟨_, exec_callNnn_of_lt nnn hsp, rfl, rfl, List.length_set, List.getElem?_set_self (by omega),
    fun j hj => List.getElem?_set_ne hj.symm, unchanged_stack_setPc ..⟩

/-- Settles O25: one register write each. -/
theorem logicOperationsLeaveTheFlag : Obligations.LogicOperationsLeaveTheFlag :=
  fun x _ s => ⟨⟨_, rfl, setV_v_self s x _, unchanged_setV s x _⟩, ⟨_, rfl, setV_v_self s x _, unchanged_setV s x _⟩,
    ⟨_, rfl, setV_v_self s x _, unchanged_setV s x _⟩⟩

/-- Settles O29: the shifted byte goes to `V[x]` first, the bit moved out to `VF` second. -/
theorem shiftsMoveOneBitIntoTheFlag : Obligations.ShiftsMoveOneBitIntoTheFlag := by
  intro x y s
  refine ⟨⟨_, rfl, fun hx => ?_, writeWithFlag_v_vf .., unchanged_writeWithFlag ..⟩,
    ⟨_, rfl, fun hx => ?_, writeWithFlag_v_vf .., unchanged_writeWithFlag ..⟩⟩
  · exact (writeWithFlag_v_self hx ..).trans (shrResult_eq _)
  · exact (writeWithFlag_v_self hx ..).trans (shlResult_eq _)

/-- Settles O30: one register write, of the draw that the start of the tick latched. -/
theorem randomIsTheDrawMasked : Obligations.RandomIsTheDrawMasked :=
  fun x _ s => ⟨⟨_, rfl, setV_v_self s x _, unchanged_setV s x _⟩,
    fun dt rnd hrun hreach hi => ⟨_, tick_of_decode_ok dt rnd hrun hreach hi, setV_v_self (afterFetch dt rnd s) x _⟩⟩

/-- Settles O32: one write of `I`. -/
theorem addToIndexWrapsWithoutFlag : Obligations.AddToIndexWrapsWithoutFlag :=
  fun _ s => ⟨_, rfl, rfl, unchanged_setIndex s _⟩

/-- Settles O33: one write of `I`, of an address below 8192. -/
theorem fontAddressIsUnmasked : Obligations.FontAddressIsUnmasked :=
  fun x s => ⟨_, rfl, rfl, glyphAddr_lt s.v[x.val], unchanged_setIndex s _⟩

/-- Settles O47: one write of a timer each. -/
theorem timerSetClearsTheAccumulator : Obligations.TimerSetClearsTheAccumulator :=
  fun _ s => ⟨⟨_, rfl, rfl, rfl, unchanged_withDt s _⟩, ⟨_, rfl, rfl, rfl, unchanged_withSt s _⟩⟩

/-- Settles O43: an index of 0..15 leaves a conditional skip on the level of that key. -/
theorem keySkipsTestTheKeyLevel : Obligations.KeySkipsTestTheKeyLevel := by
  intro x s
  refine ⟨fun hk => ?_, fun hlarge => ?_⟩
  · rw [exec_skpVx_of_lt hk, exec_sknpVx_of_lt hk]
    exact ⟨fun hdown => ⟨takenSkip_of_true hdown s, orRaise_skipIf_of_false (by simp [hdown]) s⟩,
      fun hup => ⟨orRaise_skipIf_of_false hup s, takenSkip_of_true (by simp [hup]) s⟩⟩
  · have hk : ¬ s.v[x.val].toNat < 16 := by omega
    exact ⟨exec_skpVx_of_not_lt hk, exec_sknpVx_of_not_lt hk⟩

/-- Settles O44: the wait goes back by 2, or stores the number of the lowest key down. -/
theorem keyWaitStoresTheLowestKeyDown : Obligations.KeyWaitStoresTheLowestKeyDown := by
  intro x s
  refine ⟨fun hup => ?_, fun k hk hlow => ?_⟩
  · exact ⟨_, exec_ldVxK_of_none x (firstKeyDown_none hup), s.pcBack_int, unchanged_setPc s _⟩
  · refine ⟨_, exec_ldVxK_of_some x (firstKeyDown_some hk hlow), ?_, unchanged_setV s x _⟩
    rw [setV_v_self, BitVec.toNat_ofNat, Nat.mod_eq_of_lt (by omega)]

end Sys2Proof.Proofs
end

section
/-!
PROOFS, family other. The register dump and the register load (spec/42_index_memory.md R104, R105), one after the other
and before a fetch (spec/20_memory.md R42).
-/

namespace Sys2Proof.Safety

open Sys2Proof.Machine

variable {x : Reg} {s : State}

@[simp] theorem length_regsUpTo (s : State) (x : Reg) : (regsUpTo s x).length = x.val + 1 := by
  simp only [regsUpTo, List.length_take, Vector.length_toList]
  omega

theorem getElem_regsUpTo {j : Nat} (h : j < (regsUpTo s x).length) (hj : j < 16) : (regsUpTo s x)[j] = s.v[j] := by
  simp [regsUpTo]

/-- A dump in reach stores the registers up to `x` and changes no other byte. -/
theorem exec_ldMemVx_inReach (hwf : Memory.wf s.cfg s.mem = true) (hreach : InReach s.cfg s.index (x.val + 1)) :
    ∃ t, exec (.ldMemVx x) s = .next t ∧
      (∀ r : Reg, r ≤ x → t.byteAt ((s.index + r.val) % 4096) = s.v[r.val]) ∧
      Unchanged { mem := fun a => ∃ j, j ≤ x.val ∧ a = (s.index + j) % 4096 } s t := by
  have hlen := length_regsUpTo s x
  obtain ⟨t, hexec, hbytes, hframe⟩ :=
    orRaise_writeBytes_inReach (bs := regsUpTo s x) hwf (by omega) (hlen.symm ▸ hreach)
  simp only [hlen, Nat.lt_succ_iff] at hframe
  refine ⟨t, hexec, fun r hr => ?_, hframe⟩
  have hr : r.val ≤ x.val := hr
  rw [hbytes r.val (by omega), getElem_regsUpTo]

/-- A dump out of reach takes the address fault. -/
theorem exec_ldMemVx_outOfReach (hout : OutOfReach s.cfg s.index (x.val + 1)) :
    exec (.ldMemVx x) s = .next (raise (.addressFault (max s.index 4096) .write) s) :=
  orRaise_writeBytes_outOfReach ((length_regsUpTo s x).symm ▸ hout)

/-- The registers a load writes are those up to `x`. -/
theorem exec_ldVxMem_inReach (hreach : InReach s.cfg s.index (x.val + 1)) :
    exec (.ldVxMem x) s = .next { s with v := loadedRegs x s } :=
  exec_ldVxMem_of_ok (readBytes_reach hreach)

/-- The frame of a load. -/
theorem unchanged_loadedRegs (x : Reg) (s : State) :
    Unchanged { regs := fun r => r ≤ x } s { s with v := loadedRegs x s } :=
  { unchanged_refl { regs := fun r => r ≤ x } s with
    regs := fun r hr => (loadedRegs_get x r s).trans (if_neg hr) }

end Sys2Proof.Safety

namespace Sys2Proof.Proofs

open Sys2Proof.Machine Sys2Proof.Safety

/-- Settles O35. -/
theorem registerDumpStoresUpToX : Obligations.RegisterDumpStoresUpToX :=
  fun _ _ hwf => ⟨exec_ldMemVx_inReach hwf, exec_ldMemVx_outOfReach⟩

/-- Settles O36: all bytes are read before a register is written. -/
theorem registerLoadReadsUpToX : Obligations.RegisterLoadReadsUpToX := by
  refine fun x s => ⟨fun hreach => ?_, fun ⟨hpolicy, hpos, htop⟩ => ?_⟩
  · exact ⟨_, exec_ldVxMem_inReach hreach, fun r hr => (loadedRegs_get x r s).trans (if_pos hr),
      unchanged_loadedRegs x s⟩
  · exact exec_ldVxMem_of_error (readBytes_fault hpolicy hpos htop)

/-- Settles O37: the dump leaves `I`, so that the load reads the bytes it stored. -/
theorem loadAfterDumpRestoresRegisters : Obligations.LoadAfterDumpRestoresRegisters := by
  intro x s v hwf hreach
  obtain ⟨t, hdump, hbytes, hframe⟩ := exec_ldMemVx_inReach hwf hreach
  have hindex : t.index = s.index := hframe.index id
  have hreach' : InReach t.cfg t.index (x.val + 1) := by rwa [hframe.cfg, hindex]
  refine ⟨t, _, hdump, exec_ldVxMem_inReach (s := { t with v := v }) hreach', fun r hr => ?_, fun r hr => ?_⟩
  · rw [loadedRegs_get, if_pos hr, ← hbytes r hr, hindex]
    rfl
  · exact (loadedRegs_get x r { t with v := v }).trans (if_neg hr)

/-- Settles O39: the next fetch reads the two bytes that hold `V[0]` and `V[1]`. -/
theorem storeIsSeenByTheNextFetch : Obligations.StoreIsSeenByTheNextFetch := by
  intro x s hwf hrun hx hindex hreach
  obtain ⟨t, hdump, hbytes, hframe⟩ := exec_ldMemVx_inReach hwf (hindex ▸ hreach)
  have hpc : t.pc = s.pc := hframe.pc id
  have hreach' : InReach t.cfg t.pc 2 := by
    rw [hframe.cfg, hpc]
    exact hreach.imp_right fun h => by omega
  have hword : fetchedWord t = wordOfBytes s.v[0] s.v[1] := by
    have hfirst := hbytes 0 (Fin.zero_le _)
    have hsecond := hbytes 1 hx
    rw [hindex] at hfirst hsecond
    rw [fetchedWord, hpc]
    exact congrArg₂ wordOfBytes hfirst hsecond
  exact ⟨t, hdump, fun dt rnd => hword ▸ tick_inReach dt rnd (hframe.halted.trans hrun) hreach'⟩

end Sys2Proof.Proofs
end

section
/-!
PROOFS, family other. The draw (spec/43_display.md R111, R112), cell by cell: the cells the sprite engine touches are
those that `SpriteCovers` names.
-/

namespace Sys2Proof.Safety

open Sys2Proof.Machine

variable {x y : Reg} {n : Nibble} {s : State}

/-- Inside the grid the engine touches exactly the covered cells. -/
theorem spriteTouches_iff_covers {cx cy : Nat} :
    spriteTouches (spriteColumn s.v[x.val]) (spriteRow s.v[y.val]) (bytesAtIndex s n.toNat) cx cy ↔
      cx ≤ 63 ∧ cy ≤ 31 ∧ SpriteCovers s x y n cx cy := by
  simp only [spriteTouches, SpriteCovers, getElem_bytesAtIndex, length_bytesAtIndex, exists_prop, spriteColumn,
    spriteRow, exists_and_left]

/-- A covered cell is toggled. -/
theorem cellOf_drawn_of_covers {cx cy : Nat} (hx : cx ≤ 63) (hy : cy ≤ 31) (h : SpriteCovers s x y n cx cy) :
    cellOf (drawn x y n s).1 cx cy = !cellOf s.disp cx cy :=
  (drawRows_cells _ _ _ _ cx cy).1 (spriteTouches_iff_covers.2 ⟨hx, hy, h⟩)

/-- A cell that is not covered is kept. -/
theorem cellOf_drawn_of_not_covers {cx cy : Nat} (h : ¬ SpriteCovers s x y n cx cy) :
    cellOf (drawn x y n s).1 cx cy = cellOf s.disp cx cy :=
  (drawRows_cells _ _ _ _ cx cy).2 fun ht => have ⟨_, _, hc⟩ := spriteTouches_iff_covers.1 ht; h hc

/-- The collision: a covered cell was on. -/
theorem drawn_collision : (drawn x y n s).2 = true ↔
    ∃ cx cy, cx ≤ 63 ∧ cy ≤ 31 ∧ SpriteCovers s x y n cx cy ∧ cellOf s.disp cx cy = true := by
  rw [drawn, drawRows_collision]
  simp only [spriteTouches_iff_covers, Bool.false_eq_true, false_or, and_assoc]

/-- The state after a draw that reads its rows. -/
def afterDraw (x y : Reg) (n : Nibble) (s : State) : State :=
  State.setV { s with disp := (drawn x y n s).1 } Reg.vf (flagByte (drawn x y n s).2)

/-- A draw whose rows are in reach, or that has none. -/
theorem exec_drwVxVyN_inReach (h : InReach s.cfg s.index n.toNat ∨ n = 0) :
    exec (.drwVxVyN x y n) s = .next (afterDraw x y n s) := by
  refine exec_drwVxVyN_of_ok ?_
  obtain h | rfl := h
  · exact readBytes_reach h
  · rfl

theorem flagByte_eq_one_iff {b : Bool} : flagByte b = 1 ↔ b = true := by cases b <;> decide

theorem afterDraw_vf (x y : Reg) (n : Nibble) (s : State) : (afterDraw x y n s).v[15] = flagByte (drawn x y n s).2 :=
  setV_v_self { s with disp := (drawn x y n s).1 } Reg.vf _

/-- The frame of a draw. -/
theorem unchanged_afterDraw (x y : Reg) (n : Nibble) (s : State) :
    Unchanged { regs := fun r => r = 15, disp := True } s (afterDraw x y n s) :=
  { unchanged_setV s Reg.vf (flagByte (drawn x y n s).2) with disp := fun h => absurd trivial h }

/-- A draw whose operands are not `VF` leaves the sprite where it is. -/
theorem covers_afterDraw (hx : x ≠ 15) (hy : y ≠ 15) {cx cy : Nat} :
    SpriteCovers (afterDraw x y n s) x y n cx cy ↔ SpriteCovers s x y n cx cy := by
  have hframe := unchanged_afterDraw x y n s
  have hbyte : ∀ a, (afterDraw x y n s).byteAt a = s.byteAt a := fun a => hframe.mem a id
  simp only [SpriteCovers, hframe.regs x hx, hframe.regs y hy, hframe.index id, hbyte]

/-- Toggling the covered cells twice gives them back (R112). -/
theorem afterDraw_twice_disp (hx : x ≠ 15) (hy : y ≠ 15) :
    (afterDraw x y n (afterDraw x y n s)).disp = s.disp := by
  refine Grid.ext_cells fun cx cy hcx hcy => ?_
  by_cases hc : SpriteCovers s x y n cx cy
  · have hc' := (covers_afterDraw hx hy).2 hc
    exact (cellOf_drawn_of_covers hcx hcy hc').trans ((congrArg not (cellOf_drawn_of_covers hcx hcy hc)).trans
      (Bool.not_not _))
  · have hc' := mt (covers_afterDraw hx hy).1 hc
    exact (cellOf_drawn_of_not_covers hc').trans (cellOf_drawn_of_not_covers hc)

/-- A covered cell is on after the draw iff the draw turned it on. -/
theorem covers_and_on_iff {cx cy : Nat} (hcx : cx ≤ 63) (hcy : cy ≤ 31) :
    (SpriteCovers s x y n cx cy ∧ cellOf (afterDraw x y n s).disp cx cy = true) ↔
      cellOf s.disp cx cy = false ∧ cellOf (afterDraw x y n s).disp cx cy = true := by
  refine and_congr_left fun hon => ?_
  by_cases hc : SpriteCovers s x y n cx cy
  · have htoggled : cellOf (afterDraw x y n s).disp cx cy = !cellOf s.disp cx cy := cellOf_drawn_of_covers hcx hcy hc
    rw [hon] at htoggled
    exact iff_of_true hc (by simpa using htoggled.symm)
  · have hkept : cellOf (afterDraw x y n s).disp cx cy = cellOf s.disp cx cy := cellOf_drawn_of_not_covers hc
    exact iff_of_false hc (by simp [← hkept, hon])

end Sys2Proof.Safety

namespace Sys2Proof.Proofs

open Sys2Proof.Machine Sys2Proof.Safety

/-- Settles O41: the cells and the collision of the sprite engine, and the read of the rows that comes first. -/
theorem drawTogglesTheSpriteCells : Obligations.DrawTogglesTheSpriteCells := by
  refine fun x y n s => ⟨fun hreach => ?_, fun ⟨hpolicy, hpos, htop⟩ => ?_⟩
  · refine ⟨afterDraw x y n s, exec_drwVxVyN_inReach hreach, fun _ _ => cellOf_drawn_of_covers,
      fun _ _ _ _ => cellOf_drawn_of_not_covers, fun hon => ?_, fun hoff => ?_, unchanged_afterDraw x y n s⟩
    · rw [afterDraw_vf, drawn_collision.2 hon]
      rfl
    · rw [afterDraw_vf, Bool.eq_false_iff.2 (mt drawn_collision.1 hoff)]
      rfl
  · exact exec_drwVxVyN_of_error (readBytes_fault hpolicy hpos htop)

/-- Settles O42: both draws cover the same cells; those on for the second are those the first turned on. -/
theorem drawingTwiceRestoresTheDisplay : Obligations.DrawingTwiceRestoresTheDisplay := by
  intro x y n s hx hy hreach
  refine ⟨_, _, exec_drwVxVyN_inReach (.inl hreach), exec_drwVxVyN_inReach (s := afterDraw x y n s) (.inl hreach),
    afterDraw_twice_disp hx hy, ?_⟩
  rw [afterDraw_vf, flagByte_eq_one_iff, drawn_collision]
  refine exists_congr fun cx => exists_congr fun cy => and_congr_right fun hcx => and_congr_right fun hcy => ?_
  rw [covers_afterDraw hx hy, covers_and_on_iff hcx hcy]

end Sys2Proof.Proofs
end

section
/-!
PROOFS, family other. Reset, Load and KeySet (spec/60_exceptions.md R146, R149, R150, spec/10_state.md R24).
-/

namespace Sys2Proof.Safety

open Sys2Proof.Machine

/-- A byte of the font after reset (R24, R36). -/
theorem byteAt_resetWith_font {c : Config} (hok : c.Ok) {k : Nat} (hk : k < c.fontData.length) :
    (State.resetWith c).byteAt (c.fontBase + k) = c.fontData[k] := by
  obtain ⟨-, -, -, -, hlen, -⟩ := hok
  have hfont : c.fontBase ≤ c.fontBase + k ∧ c.fontBase + k < c.fontBase + 80 := by omega
  simp [State.byteAt, Memory.read, initByte, hfont, hk]

/-- A byte outside the font after reset (R24). -/
theorem byteAt_resetWith_of_outside {c : Config} {a : Nat} (ha : a < c.fontBase ∨ c.fontBase + 80 ≤ a) :
    (State.resetWith c).byteAt a = 0 :=
  if_neg (show ¬ (c.fontBase ≤ a ∧ a < c.fontBase + 80) by omega)

end Sys2Proof.Safety

namespace Sys2Proof.Proofs

open Sys2Proof.Machine Sys2Proof.Safety

/-- Settles O56: the font by its bytes, the rest as the reset state is written. -/
theorem resetLeavesTheListedValues : Obligations.ResetLeavesTheListedValues := by
  refine ⟨fun c hok => ⟨rfl, rfl, fun _ => byteAt_resetWith_font hok, fun _ => byteAt_resetWith_of_outside,
    fun r => ?_, rfl, cellOf_cleared, fun k => ?_, rfl, rfl, rfl, rfl⟩, fun _ => rfl⟩
  · rw [State.resetWith_v, Vector.getElem_replicate]
  · rw [State.resetWith_key, Vector.getElem_replicate]

/-- Settles O57: an image that fits ends inside memory, and placing it changes memory only. -/
theorem loadPlacesTheImage : Obligations.LoadPlacesTheImage := by
  refine fun image s hok => ⟨fun hlen => ?_, load_of_lt⟩
  obtain ⟨hwf, himage, hrest⟩ :=
    placeImage_reach image (hostReset s) s.cfg.progStart (progStart_add_length_le hok hlen) rfl
  have hframe := placeImage_frame image (hostReset s) s.cfg.progStart
  refine ⟨_, load_of_le hlen, himage, hrest, ?_, hframe⟩
  rw [hframe]
  exact hwf

/-- Settles O58: one entry of the key vector is set. -/
theorem keySetSetsOneKey : Obligations.KeySetSetsOneKey := by
  refine fun k pressed s => ⟨fun hk => ⟨_, keySet_of_lt hk pressed s, rfl, fun j => ?_⟩,
    fun hk => keySet_of_le hk pressed s⟩
  simp only [Vector.getElem_set, eq_comm]

end Sys2Proof.Proofs
end
